-- ==== Sys2Proof/Word.lean ====
section
/-! DEFINITION. Word: the words of co2 CORE and the plain records built from them. 00_scope.md R5, R7, R9, R12. -/

namespace Sys2Proof

/-- A byte, an unsigned integer 0..255 (00_scope.md R7). -/
abbrev Byte := BitVec 8

/-- An op-code: byte 0 of a decoded frame, and the index of an ACC entry (30_encoding.md R73, R75). -/
abbrev OpCode := Byte

/-- The value of a Field, 16 bits unsigned (00_scope.md R5). -/
abbrev Value := BitVec 16

/-- A frame, or a key, seen as one 64-bit word: what a 64-bit port carries (45_host_interface.md R161). -/
abbrev Word64 := BitVec 64

/-- A vector of exactly 8 bytes, `b0` the first byte of the frame (00_scope.md R7, R12). The raw frame, the phase
buffers of the transform and the candidate all have this type; no other length can be written (20_memory.md R53). -/
structure Frame where
  b0 : Byte
  b1 : Byte
  b2 : Byte
  b3 : Byte
  b4 : Byte
  b5 : Byte
  b6 : Byte
  b7 : Byte
  deriving DecidableEq, Repr

/-- The 8 bytes of the key, `KEY[0]` first (10_state.md R21). Every value is legal. -/
abbrev Key := Frame

/-- The unused bytes 5, 6 and 7 of a frame (30_encoding.md R78). -/
structure Pad where
  p5 : Byte
  p6 : Byte
  p7 : Byte
  deriving DecidableEq, Repr

/-- The validated payload of one decoded frame (00_scope.md R9, R12). -/
structure Field where
  op : OpCode
  value : Value
  deriving DecidableEq, Repr

/-- What a ChecksumError carries: the raw frame and the failed candidate (40_frame_decoder.md R110). -/
structure ErrorReport where
  raw : Frame
  dec : Frame
  deriving DecidableEq, Repr

/-- The composite output, in raw units (41_accumulator.md R136). `humRaw` is `none` where no humidity was seen in
the cycle: absent, never a synthesized zero. -/
structure Reading where
  co2Ppm : Value
  tempRaw : Value
  humRaw : Option Value
  deriving DecidableEq, Repr

end Sys2Proof
end

