-- ==== Sys2Proof/Config.lean ====
section
/-! DEFINITION. Config: the named constants of 00_scope.md R5 and the example value of its one open parameter, KEY.
Nothing the spec gives a value is left free, and no value of the spec is undefined after an instruction, so there is
no opaque constant here (INVENTORY.md, "What the manual leaves open"). -/

namespace Sys2Proof.Config

/-- OP_CO2 of 00_scope.md R5. -/
def opCo2 : OpCode := 0x50#8

/-- OP_TEMP of 00_scope.md R5. -/
def opTemp : OpCode := 0x42#8

/-- OP_HUM of 00_scope.md R5. -/
def opHum : OpCode := 0x44#8

/-- TERM, the frame terminator (00_scope.md R5, 30_encoding.md R77). -/
def term : Byte := 0x0D#8

/-- The source's example value of the parameter KEY (00_scope.md R5). The machine itself has no key until the host
loads one. `State.withFetchWord` is the only definition of the model that uses this value (log 2), and no statement
rests on it. -/
def exampleKey : Key := ⟨0xC4, 0xC6, 0xC0, 0x92, 0x40, 0x23, 0xDC, 0x96⟩

end Sys2Proof.Config
end

