-- ==== Sys2Proof/Syntax.lean ====
section
/-! DEFINITION. Syntax: the instructions of co2 CORE, one constructor a row of spec/opcode_table.json (30_encoding.md
R82). -/

namespace Sys2Proof

/-- A decoded frame as an instruction. The operands are the value of bytes 1 and 2 and the unused bytes 5 to 7; the
checksum and the terminator are functions of the rest (R76, R77). The pad has no effect on any instruction (R78) and
is kept so that a frame can be given back byte for byte (log 15). -/
inductive Instr where
  /-- R131: carbon dioxide in ppm. -/
  | co2 (v : Value) (pad : Pad)
  /-- R132: temperature in sixteenths of a kelvin. -/
  | temp (v : Value) (pad : Pad)
  /-- R133: relative humidity in hundredths of a percent. -/
  | hum (v : Value) (pad : Pad)
  /-- R134: any other op-code. -/
  | unk (op : OpCode) (v : Value) (pad : Pad)
  deriving DecidableEq, Repr

end Sys2Proof
end

