-- ==== Sys2Proof/WellFormed.lean ====
section
/-! DEFINITION. WellFormed: which terms of `Instr` are instructions. The only condition the spec has is UNK's
`op_excludes` (30_encoding.md R82, 41_accumulator.md R134). -/

namespace Sys2Proof

/-- The op-codes that have an instruction of their own (10_state.md R24). -/
def knownOp (op : OpCode) : Bool :=
  op == Config.opCo2 || op == Config.opTemp || op == Config.opHum

/-- UNK's op-code is any value other than 0x50, 0x42, 0x44; every other operand is free. -/
def Instr.wellFormed : Instr → Bool
  | .co2 _ _ => true
  | .temp _ _ => true
  | .hum _ _ => true
  | .unk op _ _ => !knownOp op

end Sys2Proof
end

