-- ==== Sys2Proof/Decode.lean ====
section
/-! DEFINITION. Decode: the Frame Decoder (40_frame_decoder.md) from raw frame to instruction, total on any bytes, and
after it the encoder, the inverse transform ENC and the assembler lines (30_encoding.md). Byte arithmetic is on
`BitVec 8`, whose wrap-around is the spec's `& 0xFF` (log 19). -/

namespace Sys2Proof

/-! ### Bytes of a frame -/

namespace Frame

/-- `f[i]`, i in 0..7. -/
def get (f : Frame) (i : Fin 8) : Byte :=
  match i.val with
  | 0 => f.b0
  | 1 => f.b1
  | 2 => f.b2
  | 3 => f.b3
  | 4 => f.b4
  | 5 => f.b5
  | 6 => f.b6
  | _ => f.b7

/-- `f` with byte i replaced. -/
def set (f : Frame) (i : Fin 8) (x : Byte) : Frame :=
  match i.val with
  | 0 => { f with b0 := x }
  | 1 => { f with b1 := x }
  | 2 => { f with b2 := x }
  | 3 => { f with b3 := x }
  | 4 => { f with b4 := x }
  | 5 => { f with b5 := x }
  | 6 => { f with b6 := x }
  | _ => { f with b7 := x }

/-- The frame whose byte i is `g i`. -/
def ofFn (g : Fin 8 → Byte) : Frame :=
  ⟨g 0, g 1, g 2, g 3, g 4, g 5, g 6, g 7⟩

/-- The frame as a word W: byte 0 is W[63:56], byte 7 is W[7:0] (00_scope.md R7, decision D3). -/
def toWord (f : Frame) : Word64 :=
  f.b0 ++ f.b1 ++ f.b2 ++ f.b3 ++ f.b4 ++ f.b5 ++ f.b6 ++ f.b7

/-- The frame on a 64-bit port (00_scope.md R7, 45_host_interface.md R161). -/
def ofWord (w : Word64) : Frame :=
  ⟨w.extractLsb' 56 8, w.extractLsb' 48 8, w.extractLsb' 40 8, w.extractLsb' 32 8,
   w.extractLsb' 24 8, w.extractLsb' 16 8, w.extractLsb' 8 8, w.extractLsb' 0 8⟩

/-- The bytes in order, byte 0 first (20_memory.md R52). -/
def toBytes (f : Frame) : List Byte :=
  [f.b0, f.b1, f.b2, f.b3, f.b4, f.b5, f.b6, f.b7]

/-- A frame from exactly 8 bytes, and from nothing else (20_memory.md R53). -/
def ofBytes : List Byte → Option Frame
  | [b0, b1, b2, b3, b4, b5, b6, b7] => some ⟨b0, b1, b2, b3, b4, b5, b6, b7⟩
  | _ => none

/-- Bytes 5 to 7 (30_encoding.md R78). -/
def pad (f : Frame) : Pad := ⟨f.b5, f.b6, f.b7⟩

end Frame

/-- The byte indices 0..7 in order. -/
def byteIndices : List (Fin 8) := [0, 1, 2, 3, 4, 5, 6, 7]

/-! ### The transform, 40_frame_decoder.md R102 to R107 -/

/-- The shuffle table S = [2,4,0,7,1,6,5,3] (00_scope.md R5, 10_state.md R29). -/
def shuffle (i : Fin 8) : Fin 8 :=
  match i.val with
  | 0 => 2
  | 1 => 4
  | 2 => 0
  | 3 => 7
  | 4 => 1
  | 5 => 6
  | 6 => 5
  | _ => 3

/-- Step 1 as a scatter over any initial buffer: `for i in 0..7: p[S[i]] = f[i]` (R102). -/
def scatterOnto (p f : Frame) : Frame :=
  byteIndices.foldl (fun p i => p.set (shuffle i) (f.get i)) p

/-- Step 1, permutation (R102). Every position is written, so what the buffer held first does not matter
(`Laws.scatterOnto_eq_gather`). -/
def phase1 (f : Frame) : Frame := scatterOnto f f

/-- Step 2, key mix: byte i of the permuted buffer XOR byte i of the key (R103). -/
def phase2 (k p1 : Frame) : Frame :=
  Frame.ofFn fun i => p1.get i ^^^ k.get i

/-- One byte of step 3: the high 5 bits of `cur` below the low 3 bits of `prev` (R104, conflict C2). -/
def mixByte (cur prev : Byte) : Byte := (cur >>> 3) ||| (prev <<< 5)

/-- Step 3, rotation across bytes; on `Fin 8` the index i - 1 is (i - 1) mod 8, so index -1 is 7 (R104). -/
def phase3 (p2 : Frame) : Frame :=
  Frame.ofFn fun i => mixByte (p2.get i) (p2.get (i - 1))

/-- The constant C, "Htemp99e" (00_scope.md R5, 10_state.md R29). -/
def constC : Frame := ⟨0x48, 0x74, 0x65, 0x6D, 0x70, 0x39, 0x39, 0x65⟩

/-- The two nibbles of a byte change places (R105). -/
def swapNibbles (c : Byte) : Byte := (c >>> 4) ||| (c <<< 4)

/-- Step 4: the constant `ctmp` = CT (R105). -/
def ctmp : Frame := Frame.ofFn fun i => swapNibbles (constC.get i)

/-- Step 5, byte-wise wrapping subtraction of `ctmp` (R106). -/
def subCtmp (p3 : Frame) : Frame :=
  Frame.ofFn fun i => p3.get i - ctmp.get i

/-- The transform `xform(k, f)`; its result is the candidate (R107). -/
def xform (k : Key) (f : Frame) : Frame :=
  subCtmp (phase3 (phase2 k (phase1 f)))

/-! ### Validation, field extraction and the whole decoder -/

/-- The 8-bit sum of bytes 0, 1 and 2 with the carry dropped (30_encoding.md R76). -/
def sum3 (op vhi vlo : Byte) : Byte := op + vhi + vlo

/-- The checksum predicate `valid` (R101, R108): additive sum and terminator, nothing else (conflict C1). -/
def valid (d : Frame) : Bool :=
  d.b4 == Config.term && sum3 d.b0 d.b1 d.b2 == d.b3

/-- The big-endian value of bytes 1 and 2 (20_memory.md R51, 30_encoding.md R74). -/
def valueOf (d : Frame) : Value := d.b1 ++ d.b2

/-- Field extraction from a valid candidate (R109). -/
def fieldOf (d : Frame) : Field := ⟨d.b0, valueOf d⟩

/-- The DecodedFrame candidate: the raw frame itself if it is plaintext-valid, a test made first on every frame, else
its transform (R100, R101, R114; 30_encoding.md R79, R80). -/
def candidate (k : Key) (f : Frame) : Frame := if valid f then f else xform k f

/-- The two outcomes of a decode (00_scope.md R9, 40_frame_decoder.md R100). -/
inductive Decoded where
  | field (f : Field)
  | checksumError (e : ErrorReport)
  deriving DecidableEq, Repr

/-- The tag of an outcome, 0 = Field, 1 = ChecksumError (60_exceptions.md R182, decision D8). -/
def Decoded.tag : Decoded → Nat
  | .field _ => 0
  | .checksumError _ => 1

/-- The decoder `decode(k, f)` of R100 and R115. -/
def decode (k : Key) (f : Frame) : Decoded :=
  let d := candidate k f
  if valid d then .field (fieldOf d) else .checksumError ⟨f, d⟩

/-- The instruction an op-code selects, its operands given (30_encoding.md R82). -/
def selectInstr (op : OpCode) (v : Value) (pad : Pad) : Instr :=
  if op == Config.opCo2 then .co2 v pad
  else if op == Config.opTemp then .temp v pad
  else if op == Config.opHum then .hum v pad
  else .unk op v pad

/-- The instruction a candidate is, if it is one: format F (30_encoding.md R71, R82, R84). -/
def decodeCandidate (d : Frame) : Option Instr :=
  if valid d then some (selectInstr d.b0 (valueOf d) d.pad) else none

/-- What a raw frame is under a key: one of the four instructions, or a ChecksumError. -/
inductive DecodedInstr where
  | instr (i : Instr)
  | checksumError (e : ErrorReport)
  deriving DecidableEq, Repr

/-- The decoder at the level of instructions: the same candidate, read by the op-code map (30_encoding.md R82). -/
def decodeInstr (k : Key) (f : Frame) : DecodedInstr :=
  match decodeCandidate (candidate k f) with
  | some i => .instr i
  | none => .checksumError ⟨f, candidate k f⟩

/-- Why a list of bytes is no instruction. `wrongLength`: not exactly 8 bytes, which no port can present and the model
refuses at its boundary (20_memory.md R53, decision D9). `checksum`: the block's own ChecksumError (R110). -/
inductive DecodeReject where
  | wrongLength
  | checksum (e : ErrorReport)
  deriving DecidableEq, Repr

/-- Decoding any list of bytes. -/
def decodeBytes (k : Key) (bs : List Byte) : Except DecodeReject Instr :=
  match Frame.ofBytes bs with
  | none => .error .wrongLength
  | some f =>
    match decodeInstr k f with
    | .instr i => .ok i
    | .checksumError e => .error (.checksum e)

/-! ### The op-code table read as a decoder, 30_encoding.md R83 -/

/-- The mnemonics of spec/opcode_table.json. -/
inductive Mnemonic where
  | CO2
  | TEMP
  | HUM
  | UNK
  deriving DecidableEq, Repr

/-- The mnemonic of an instruction. -/
def Instr.mnemonic : Instr → Mnemonic
  | .co2 _ _ => .CO2
  | .temp _ _ => .TEMP
  | .hum _ _ => .HUM
  | .unk _ _ _ => .UNK

/-- One row of spec/opcode_table.json: match and mask over W, and UNK's `op_excludes`. -/
structure OpRow where
  mnemonic : Mnemonic
  matchBits : Word64
  mask : Word64
  opExcludes : List OpCode
  deriving DecidableEq, Repr

/-- The rows in the order listed, UNK last (30_encoding.md R82). -/
def opRows : List OpRow :=
  [⟨.CO2, 0x500000000D000000, 0xFF000000FF000000, []⟩,
   ⟨.TEMP, 0x420000000D000000, 0xFF000000FF000000, []⟩,
   ⟨.HUM, 0x440000000D000000, 0xFF000000FF000000, []⟩,
   ⟨.UNK, 0x000000000D000000, 0x00000000FF000000, [0x50, 0x42, 0x44]⟩]

/-- The table's `chk_rule`: W[39:32] is the 8-bit sum of W[63:56], W[55:48] and W[47:40]. -/
def chkRule (w : Word64) : Bool :=
  w.extractLsb' 32 8 == sum3 (w.extractLsb' 56 8) (w.extractLsb' 48 8) (w.extractLsb' 40 8)

/-- A row passes on a word: `(W & mask) == match`, the op-code not excluded, the sum right (R83). -/
def OpRow.passes (r : OpRow) (w : Word64) : Bool :=
  (w &&& r.mask) == r.matchBits && !r.opExcludes.contains (w.extractLsb' 56 8) && chkRule w

/-- The decoder written from the table alone: the first row that passes (R83). -/
def tableDecode (w : Word64) : Option Mnemonic :=
  (opRows.find? fun r => r.passes w).map OpRow.mnemonic

/-! ### The encoder, the inverse transform and the assembler -/

/-- The plaintext frame `op vhi vlo chk 0D pad` (30_encoding.md R71, R76, R86). -/
def plainFrame (op : OpCode) (v : Value) (pad : Pad) : Frame :=
  let vhi : Byte := v.extractLsb' 8 8
  let vlo : Byte := v.extractLsb' 0 8
  ⟨op, vhi, vlo, sum3 op vhi vlo, Config.term, pad.p5, pad.p6, pad.p7⟩

/-- The plaintext frame of an instruction (30_encoding.md R82, R86). -/
def encode : Instr → Frame
  | .co2 v pad => plainFrame Config.opCo2 v pad
  | .temp v pad => plainFrame Config.opTemp v pad
  | .hum v pad => plainFrame Config.opHum v pad
  | .unk op v pad => plainFrame op v pad

/-- Undo step 5 (30_encoding.md R85). -/
def addCtmp (d : Frame) : Frame :=
  Frame.ofFn fun i => d.get i + ctmp.get i

/-- Undo one byte of step 3: the low 5 bits of `cur` above the high 3 bits of `next` (R85). -/
def unmixByte (cur next : Byte) : Byte := (cur <<< 3) ||| (next >>> 5)

/-- Undo step 3; the index i + 1 is mod 8 (R85). -/
def unphase3 (p3 : Frame) : Frame :=
  Frame.ofFn fun i => unmixByte (p3.get i) (p3.get (i + 1))

/-- Undo step 2 (R85). -/
def unphase2 (k p2 : Frame) : Frame :=
  Frame.ofFn fun i => p2.get i ^^^ k.get i

/-- Undo step 1: `w[i] = p1[S[i]]` (R85). -/
def unphase1 (p1 : Frame) : Frame :=
  Frame.ofFn fun i => p1.get (shuffle i)

/-- ENC(k, d), the inverse of the transform (30_encoding.md R85). Not part of the hardware. -/
def enc (k : Key) (d : Frame) : Frame :=
  unphase1 (unphase2 k (unphase3 (addCtmp d)))

/-- One line of an assembler program as data; the text form is notation (30_encoding.md R86, log 18). -/
inductive AsmLine where
  /-- A mnemonic line: the plaintext frame. -/
  | plain (i : Instr)
  /-- `.wire <mnemonic line>`. -/
  | wire (i : Instr)
  /-- `.raw b0 .. b7`. -/
  | raw (f : Frame)
  deriving DecidableEq, Repr

/-- The pad of a mnemonic line that gives none: 00 00 00 (30_encoding.md R86). -/
def zeroPad : Pad := ⟨0, 0, 0⟩

/-- The frame of a line under the key of the run. `none` is an error at assembly time: an instruction that is not
well-formed, or a `.wire` whose result is plaintext-valid (30_encoding.md R81, R86). -/
def AsmLine.assemble (k : Key) : AsmLine → Option Frame
  | .plain i => if i.wellFormed then some (encode i) else none
  | .wire i =>
    let w := enc k (encode i)
    if i.wellFormed && !valid w then some w else none
  | .raw f => some f

/-! ### The host's view of the opcode table -/

/-- The frame of a table word of `nbits` bits. The table has one word W of 64 bits a row, byte 0 = W[63:56]; bits from
`nbits` up are 0 (log 13). -/
def frameOfTableWord (nbits w : Nat) : Frame :=
  Frame.ofWord (BitVec.ofNat 64 (w % 2 ^ min nbits 64))

/-- The instruction the decoder reads from a table word, which the table gives as a DecodedFrame candidate (30_encoding.md
R82); `none` where format F refuses it. -/
def decodeTableWord (nbits w : Nat) : Option Instr :=
  decodeCandidate (frameOfTableWord nbits w)

end Sys2Proof
end

