-- ==== Sys2Proof/Machine/State.lean ====
section
/-! DEFINITION. State: everything 10_state.md gives the block (R20 to R37), and the two fields of the model's own that
join it to its ports (45_host_interface.md R161). Plain data throughout. -/

namespace Sys2Proof.Machine

/-- The states of the accumulator's state machine (10_state.md R26, 41_accumulator.md R145). -/
inductive Fsm where
  | collecting
  | complete
  deriving DecidableEq, Repr

/-- The register file ACC: 256 entries `{valid, value}` indexed by op-code (10_state.md R23). It lists the entries whose
valid bit is 1, strictly rising in op-code; an op-code that is not listed is absent, and an absent entry has no value
(93_implementation_defined.md U13). Read and written only through Machine/Ops.lean (log 5). -/
structure Acc where
  entries : List (OpCode × Value)
  deriving DecidableEq, Repr

/-- What a step puts on the output ports (45_host_interface.md R161). A strobe is 1 exactly where the option is `some`;
data under a strobe of 0 is absent (93_implementation_defined.md U15, log 14), and so, by the model's choice, is
`rd_hum_valid` while `rd_valid` is 0 (log 21). -/
structure Outputs where
  field : Option Field
  err : Option ErrorReport
  reading : Option Reading
  deriving DecidableEq, Repr

/-- No strobe asserted. -/
def Outputs.quiet : Outputs := ⟨none, none, none⟩

/-- The input ports at one clock edge (45_host_interface.md R161). -/
structure PortsIn where
  rst : Bool
  keyWe : Bool
  keyI : Word64
  frameValid : Bool
  frameI : Word64
  deriving DecidableEq, Repr

/-- The state. `key`, `acc`, `fsm` are the architectural state of 10_state.md R20; `n` is the spec's bookkeeping (R27);
`inputs` and `out` are the model's own and stand for the ports (log 1, log 3). -/
structure State where
  /-- KEY with key_valid: `none` is key_valid = 0, when KEY holds no value (R21, R22, log 4). -/
  key : Option Key
  /-- The register file ACC (R23). -/
  acc : Acc
  /-- The state machine register (R26, log 6). -/
  fsm : Fsm
  /-- The stream index: frames consumed since reset (R27, log 7). -/
  n : Nat
  /-- What the host puts on the input ports, one entry a clock cycle, the next cycle first (log 1). -/
  inputs : List PortsIn
  /-- What the last step put on the output ports; written whole by every step, read by none (R31, log 3). -/
  out : Outputs
  deriving DecidableEq, Repr

/-- The machine stops with a fault: never. The block's one exception, ChecksumError, is an ordinary step outcome
(60_exceptions.md R188), so this type has no constructor and no step can raise one (log 10). -/
inductive Fault where
  deriving DecidableEq, Repr

/-- Requests that have no meaning: the misuses by the host of 45_host_interface.md R170, and nothing else (R188, U17,
log 9). Each is safe: the model stops where a laxer implementation would go on. -/
inductive Refusal where
  /-- Raised by `exec` for an instruction without a meaning. No arm raises it. Safe. -/
  | notModelled (mnemonic : String)
  /-- Raised by `hostPush`: PUSH with key_valid = 0 (R164). Safe. -/
  | pushBeforeKey
  /-- Raised by `hostLoadKey`: LOADKEY with key_valid = 1 (R163). Safe. -/
  | secondLoadKey
  /-- Raised by `runCycle`: LOADKEY and PUSH requested in one cycle (R164). Safe. -/
  | loadKeyWithPush
  deriving DecidableEq, Repr

/-- The state after RESET (10_state.md R35, 70_reset_and_hazards.md R200), with no request waiting. -/
def State.reset : State where
  key := none
  acc := ⟨[]⟩
  fsm := .collecting
  n := 0
  inputs := []
  out := Outputs.quiet

end Sys2Proof.Machine
end

