-- ==== Sys2Proof/Machine/Ops.lean ====
section
/-! DEFINITION. Ops: the named operations on ACC, KEY, the stream index and the outputs, and taking a ChecksumError. -/

namespace Sys2Proof.Machine

/-- The value listed for an op-code, if it is listed. -/
def lookupEntry (op : OpCode) : List (OpCode × Value) → Option Value
  | [] => none
  | (o, w) :: rest => if o = op then some w else lookupEntry op rest

/-- The list with an op-code's value written, kept in rising order. -/
def insertEntry (op : OpCode) (v : Value) : List (OpCode × Value) → List (OpCode × Value)
  | [] => [(op, v)]
  | (o, w) :: rest =>
    if o = op then (op, v) :: rest
    else if op.toNat < o.toNat then (op, v) :: (o, w) :: rest
    else (o, w) :: insertEntry op v rest

/-- `ACC[op]`: `some` its value where its valid bit is 1 (00_scope.md R8, 10_state.md R23). -/
def Acc.get (a : Acc) (op : OpCode) : Option Value := lookupEntry op a.entries

/-- `ACC[op] <- v`: valid becomes 1 and the value v, whatever was there (00_scope.md R8, 10_state.md R25). -/
def Acc.upsert (a : Acc) (op : OpCode) (v : Value) : Acc := ⟨insertEntry op v a.entries⟩

/-- `ACC <- empty`: all 256 entries absent (00_scope.md R8, 41_accumulator.md R137). -/
def Acc.empty : Acc := ⟨[]⟩

/-- The canonical form of the list: op-codes strictly rising, so that equal register files are equal data. -/
def Acc.wf (a : Acc) : Bool := decide (a.entries.Pairwise fun x y => x.1.toNat < y.1.toNat)

/-- One more frame consumed (10_state.md R27). -/
def nextIndex (s : State) : State := { s with n := s.n + 1 }

/-- The upsert of a Field (41_accumulator.md R130). -/
def upsertField (f : Field) (s : State) : State := { s with acc := s.acc.upsert f.op f.value }

/-- The state machine enters Complete (41_accumulator.md R145). -/
def enterComplete (s : State) : State := { s with fsm := .complete }

/-- The Reading built from ACC: co2 from 0x50, temperature from 0x42, humidity from 0x44 if present, else none
(41_accumulator.md R136). Without both mandatory entries there is no Reading (R147). -/
def readingOf (a : Acc) : Option Reading :=
  match a.get Config.opCo2, a.get Config.opTemp with
  | some c, some t => some ⟨c, t, a.get Config.opHum⟩
  | _, _ => none

/-- The step's outputs for a Field without a Reading (45_host_interface.md R166). -/
def emitField (f : Field) (s : State) : State := { s with out := ⟨some f, none, none⟩ }

/-- The state machine leaves Complete in the same step: the Reading is built from ACC as it stands, then ACC is cleared
entirely, and the machine is Collecting again (41_accumulator.md R136, R137, R145). The Field is an output too. -/
def emitReadingAndClear (f : Field) (s : State) : State :=
  { s with acc := Acc.empty, fsm := .collecting, out := ⟨some f, none, readingOf s.acc⟩ }

/-- Taking a ChecksumError (60_exceptions.md R186): nothing is saved, nothing changes and nothing is entered; the whole
effect is the diagnostic output. There is no return from it, since nothing was entered (R187). -/
def takeChecksumError (e : ErrorReport) (s : State) : State := { s with out := ⟨none, some e, none⟩ }

end Sys2Proof.Machine
end

