-- ==== Sys2Proof/Machine/Flags.lean ====
section
/-! DEFINITION. Flags: the things that act as flags (10_state.md R28). The block has no condition-code register; the
decoder's predicate `valid` stands in Decode.lean. -/

namespace Sys2Proof.Machine

/-- `ACC[op].valid` (10_state.md R28 (a)). -/
def Acc.validBit (a : Acc) (op : OpCode) : Bool := (a.get op).isSome

/-- The completion predicate: both mandatory entries present (10_state.md R28 (b), 41_accumulator.md R135). -/
def complete (a : Acc) : Bool := a.validBit Config.opCo2 && a.validBit Config.opTemp

/-- `key_valid` (10_state.md R22, R28 (d)). -/
def State.keyValid (s : State) : Bool := s.key.isSome

end Sys2Proof.Machine
end

