-- ==== Sys2Proof/Machine/Operands.lean ====
section
/-! DEFINITION. Operands: the operands of an instruction (30_encoding.md R73 to R75). The op-code is at once the
operation and the number of the ACC entry it writes; there is no other operand form. -/

namespace Sys2Proof.Machine

/-- The op-code operand, which is the "effective address" of the store (30_encoding.md R73, 41_accumulator.md R147). -/
def opOf : Instr → OpCode
  | .co2 _ _ => Config.opCo2
  | .temp _ _ => Config.opTemp
  | .hum _ _ => Config.opHum
  | .unk op _ _ => op

/-- The value operand (30_encoding.md R74). -/
def valueOperand : Instr → Value
  | .co2 v _ => v
  | .temp v _ => v
  | .hum v _ => v
  | .unk _ v _ => v

/-- The Field an instruction carries (40_frame_decoder.md R109). -/
def fieldOfInstr (i : Instr) : Field := ⟨opOf i, valueOperand i⟩

end Sys2Proof.Machine
end

