-- ==== Sys2Proof/Machine/Accumulator.lean ====
section
/-! DEFINITION. Accumulator: the meanings of the four instructions (41_accumulator.md R130 to R137). -/

namespace Sys2Proof.Machine

/-- The common Field step (R130, R146): upsert, then the completion test on ACC as it stands after the upsert, whatever
the op-code (10_state.md R37); if it holds, through Complete to one Reading and an empty ACC; if not, the Field alone. -/
def fieldStep (f : Field) (s : State) : State :=
  let s1 := upsertField f s
  if complete s1.acc then emitReadingAndClear f (enterComplete s1) else emitField f s1

/-- CO2 (R131). -/
def execCo2 (v : Value) (_pad : Pad) (s : State) : Host.Outcome State Fault Refusal :=
  .next (fieldStep ⟨Config.opCo2, v⟩ s)

/-- TEMP (R132). -/
def execTemp (v : Value) (_pad : Pad) (s : State) : Host.Outcome State Fault Refusal :=
  .next (fieldStep ⟨Config.opTemp, v⟩ s)

/-- HUM (R133). -/
def execHum (v : Value) (_pad : Pad) (s : State) : Host.Outcome State Fault Refusal :=
  .next (fieldStep ⟨Config.opHum, v⟩ s)

/-- UNK (R134): stored like the others (decision D5). -/
def execUnk (op : OpCode) (v : Value) (_pad : Pad) (s : State) : Host.Outcome State Fault Refusal :=
  .next (fieldStep ⟨op, v⟩ s)

end Sys2Proof.Machine
end

