-- ==== Sys2Proof/Machine/Dispatch.lean ====
section
/-! DEFINITION. Dispatch: one arm per instruction. -/

namespace Sys2Proof.Machine

def exec (i : Instr) (s : State) : Host.Outcome State Fault Refusal :=
  match i with
  | .co2 v pad => Sys2Proof.Machine.execCo2 v pad s
  | .temp v pad => Sys2Proof.Machine.execTemp v pad s
  | .hum v pad => Sys2Proof.Machine.execHum v pad s
  | .unk op v pad => Sys2Proof.Machine.execUnk op v pad s

end Sys2Proof.Machine
end

