-- ==== Sys2Proof/Machine/Ports.lean ====
section
/-! DEFINITION. Ports: the ports of 45_host_interface.md R161. Byte 0 of every 64-bit port is bits [63:56] (D3). -/

namespace Sys2Proof.Machine

/-- What the host asks of the block in one clock cycle (45_host_interface.md R162 to R165). -/
inductive HostOp where
  | reset
  | loadKey (k : Key)
  | push (f : Frame)
  /-- LOADKEY and PUSH in one cycle: a misuse (R164). -/
  | loadKeyWithPush
  | idle
  deriving DecidableEq, Repr

/-- The request on the input ports. RESET has priority (R162); data under a strobe of 0 is not looked at (log 14). -/
def PortsIn.op (p : PortsIn) : HostOp :=
  if p.rst then .reset
  else
    match p.keyWe, p.frameValid with
    | true, true => .loadKeyWithPush
    | true, false => .loadKey (Frame.ofWord p.keyI)
    | false, true => .push (Frame.ofWord p.frameI)
    | false, false => .idle

/-- A cycle with no request. -/
def idlePorts : PortsIn := ⟨false, false, 0, false, 0⟩

/-- A cycle that requests RESET. -/
def resetPorts : PortsIn := ⟨true, false, 0, false, 0⟩

/-- A cycle that requests LOADKEY k. -/
def loadKeyPorts (k : Key) : PortsIn := ⟨false, true, k.toWord, false, 0⟩

/-- A cycle that requests PUSH f. -/
def pushPorts (f : Frame) : PortsIn := ⟨false, false, 0, true, f.toWord⟩

namespace Outputs

/-- Port `field_valid`. -/
def fieldValid (o : Outputs) : Bool := o.field.isSome

/-- Port `field_op`, where its strobe is 1. -/
def fieldOp (o : Outputs) : Option OpCode := o.field.map Field.op

/-- Port `field_value`, where its strobe is 1. -/
def fieldValue (o : Outputs) : Option Value := o.field.map Field.value

/-- Port `err_valid`. -/
def errValid (o : Outputs) : Bool := o.err.isSome

/-- Port `err_raw`, where its strobe is 1. -/
def errRaw (o : Outputs) : Option Word64 := o.err.map fun e => e.raw.toWord

/-- Port `err_dec`, where its strobe is 1. -/
def errDec (o : Outputs) : Option Word64 := o.err.map fun e => e.dec.toWord

/-- Port `rd_valid`. -/
def rdValid (o : Outputs) : Bool := o.reading.isSome

/-- Port `rd_co2`, where its strobe is 1. -/
def rdCo2 (o : Outputs) : Option Value := o.reading.map Reading.co2Ppm

/-- Port `rd_temp`, where its strobe is 1. -/
def rdTemp (o : Outputs) : Option Value := o.reading.map Reading.tempRaw

/-- Port `rd_hum_valid`, where `rd_valid` is 1. DESIGN CHOICE (log 21), safe: while `rd_valid` is 0 the line is absent; the
spec leaves open whether it carries 0 there, as a strobe, or no value, as a data output (R161, U15). -/
def rdHumValid (o : Outputs) : Option Bool := o.reading.map fun r => r.humRaw.isSome

/-- Port `rd_hum`, where `rd_hum_valid` is 1. -/
def rdHum (o : Outputs) : Option Value := o.reading.bind Reading.humRaw

end Outputs

end Sys2Proof.Machine
end

