-- ==== Sys2Proof/Machine/HostOps.lean ====
section
/-! DEFINITION. HostOps: the host operations RESET, LOADKEY, PUSH and idle (45_host_interface.md R162 to R165), and the
queue of port values they are read from (log 1). -/

namespace Sys2Proof.Machine

/-- RESET: every piece of the block's state takes its reset value (R162, 70_reset_and_hazards.md R200). The requests of
later cycles are the host's and stay (log 11). -/
def hostReset (s : State) : State := { State.reset with inputs := s.inputs }

/-- LOADKEY: write-once after each RESET; with key_valid = 1 it has no meaning (R163). -/
def hostLoadKey (k : Key) (s : State) : Host.Outcome State Fault Refusal :=
  match s.key with
  | none => .next { s with key := some k, out := Outputs.quiet }
  | some _ => .refused .secondLoadKey

/-- Idle: no state changes, no strobe is asserted (R165). -/
def hostIdle (s : State) : State := { s with out := Outputs.quiet }

/-- PUSH: decode the frame under KEY; an instruction runs, a ChecksumError is taken; the stream index advances either
way (R164, 41_accumulator.md R146). With key_valid = 0 it has no meaning. -/
def hostPush (f : Frame) (s : State) : Host.Outcome State Fault Refusal :=
  match s.key with
  | none => .refused .pushBeforeKey
  | some k =>
    match decodeInstr k f with
    | .instr i => exec i (nextIndex s)
    | .checksumError e => .next (takeChecksumError e (nextIndex s))

/-- One clock cycle with the given request. -/
def runCycle (op : HostOp) (s : State) : Host.Outcome State Fault Refusal :=
  match op with
  | .reset => .next (hostReset s)
  | .loadKey k => hostLoadKey k s
  | .push f => hostPush f s
  | .loadKeyWithPush => .refused .loadKeyWithPush
  | .idle => .next (hostIdle s)

/-- The input ports at this clock edge: the head of the queue, or no request where the host has none left (R165). -/
def portsNow (s : State) : PortsIn := s.inputs.headD idlePorts

/-- The state with this cycle's port values consumed. -/
def consumePorts (s : State) : State := { s with inputs := s.inputs.tail }

/-- A state whose next cycle pushes the frame on `w`: a key is loaded if none is, and the frame waits in front of every
other request (log 2). -/
def placeFrameWord (w : Word64) (s : State) : State :=
  { s with
    key := some (s.key.getD Config.exampleKey)
    inputs := ⟨false, false, 0, true, w⟩ :: s.inputs }

end Sys2Proof.Machine
end

