-- ==== Sys2Proof/Machine/Step.lean ====
section
/-! DEFINITION. Step: one clock cycle of the block (00_scope.md R6, 45_host_interface.md R161). -/

namespace Sys2Proof.Machine

/-- One step: the request on the input ports is carried out (log 1). -/
def step (s : State) : Host.Outcome State Fault Refusal :=
  runCycle (portsNow s).op (consumePorts s)

/-- `s` with a table word placed where the next step takes its frame from (log 2, log 13). -/
def State.withFetchWord (s : State) (nbits w : Nat) : State :=
  placeFrameWord (frameOfTableWord nbits w).toWord s

end Sys2Proof.Machine
end

