-- ==== Sys2Proof/Machine/Units.lean ====
section
/-! DEFINITION. Units: the physical values of a Reading, exact rationals (41_accumulator.md R138 to R140, decision
D7). No rounding and no float format belongs to the block. -/

namespace Sys2Proof.Machine

/-- `co2_ppm`, the raw value (R138). -/
def readingCo2Ppm (r : Reading) : Nat := r.co2Ppm.toNat

/-- `temperature_c = value/16 − 273.15` (R139); the raw unit is 1/16 K (conflict C4). -/
def temperatureC (v : Value) : Rat := (v.toNat : Rat) / 16 - 27315 / 100

/-- `humidity_pct = value/100`, no clamp (R140). -/
def humidityPct (v : Value) : Rat := (v.toNat : Rat) / 100

/-- The temperature of a Reading. -/
def readingTemperatureC (r : Reading) : Rat := temperatureC r.tempRaw

/-- The humidity of a Reading; it exists only where `humRaw` does (R140). -/
def readingHumidityPct (r : Reading) : Option Rat := r.humRaw.map humidityPct

end Sys2Proof.Machine
end

