-- ==== Sys2Proof/Safety.lean ====
section
/-! DEFINITION. Safety: the terms the statements use: the invariant of a run, the host's protocol, runs and their outputs,
and the reference step of 41_accumulator.md R146. -/

namespace Sys2Proof.Machine

/-! ### The invariant -/

/-- What every output of a step satisfies: Field and ChecksumError never together, a Reading only with a Field, and that
Field CO2 or TEMP carrying the Reading's own value (45_host_interface.md R161, 41_accumulator.md R136, R144). -/
def OutputsOk (o : Outputs) : Prop :=
  (o.field = none ∨ o.err = none) ∧
  ∀ r, o.reading = some r →
    o.field = some ⟨Config.opCo2, r.co2Ppm⟩ ∨ o.field = some ⟨Config.opTemp, r.tempRaw⟩

/-- The invariant of every run from reset, at step boundaries: the machine is Collecting (10_state.md R26), the mandatory
pair is never both present (R37), ACC is in canonical form, without a key nothing has been collected or consumed
(70_reset_and_hazards.md R200, 45_host_interface.md R164), ACC is empty after a Reading (41_accumulator.md R137), and the
outputs are in order. -/
structure Inv (s : State) : Prop where
  collecting : s.fsm = .collecting
  incomplete : complete s.acc = false
  accWf : s.acc.wf = true
  noKey : s.key = none → s.acc = Acc.empty ∧ s.n = 0
  cleared : s.out.reading ≠ none → s.acc = Acc.empty
  outputsOk : OutputsOk s.out

/-! ### The host's duties -/

/-- The host keeps to 45_host_interface.md R170 on these cycles, `keyed` telling whether a key is loaded at their start:
LOADKEY only when none is, PUSH only when one is, never both in one cycle; RESET and idle at any time. -/
def hostObeys : Bool → List HostOp → Bool
  | _, [] => true
  | _, .reset :: rest => hostObeys false rest
  | keyed, .loadKey _ :: rest => !keyed && hostObeys true rest
  | keyed, .push _ :: rest => keyed && hostObeys keyed rest
  | _, .loadKeyWithPush :: _ => false
  | keyed, .idle :: rest => hostObeys keyed rest

/-! ### Runs -/

/-- The outputs of up to `k` steps in order; the list ends early where a step is refused (70_reset_and_hazards.md R204). -/
def runOutputs : Nat → State → List Outputs
  | 0, _ => []
  | k + 1, s =>
    match step s with
    | .next t => t.out :: runOutputs k t
    | .fault _ => []
    | .refused _ => []

/-- The Readings of up to `k` steps, in order. -/
def runReadings (k : Nat) (s : State) : List Reading := (runOutputs k s).filterMap Outputs.reading

/-! ### The reference step -/

/-- ACC as the spec's mapping from op-code to most-recent value (10_state.md R23), the representation forgotten. -/
abbrev AccMap := OpCode → Option Value

/-- `step(st, f)` of 41_accumulator.md R146 written out on `AccMap` with the decoder of 40_frame_decoder.md R115: an account
of the block that uses neither the instructions nor the operations of the machine. -/
def refStep (k : Key) (a : AccMap) (f : Frame) : AccMap × Outputs :=
  match decode k f with
  | .checksumError e => (a, ⟨none, some e, none⟩)
  | .field fd =>
    let acc1 : AccMap := fun op => if op = fd.op then some fd.value else a op
    match acc1 0x50, acc1 0x42 with
    | some c, some t => (fun _ => none, ⟨some fd, none, some ⟨c, t, acc1 0x44⟩⟩)
    | _, _ => (acc1, ⟨some fd, none, none⟩)

/-- The reference step folded over a list of frames: the final ACC and the outputs in order (20_memory.md R57). -/
def refRun (k : Key) : AccMap → List Frame → AccMap × List Outputs
  | a, [] => (a, [])
  | a, f :: fs =>
    let (a1, o) := refStep k a f
    let (a2, os) := refRun k a1 fs
    (a2, o :: os)

/-- Two register files that agree on the three entries a Reading is built from (41_accumulator.md R134). -/
def AgreeOnNamed (a b : Acc) : Prop :=
  a.get Config.opCo2 = b.get Config.opCo2 ∧ a.get Config.opTemp = b.get Config.opTemp ∧
    a.get Config.opHum = b.get Config.opHum

/-- Two states that differ at most in ACC entries outside the three named ones. -/
structure SameButUnknown (s t : State) : Prop where
  key : s.key = t.key
  named : AgreeOnNamed s.acc t.acc
  fsm : s.fsm = t.fsm
  n : s.n = t.n
  inputs : s.inputs = t.inputs
  out : s.out = t.out

end Sys2Proof.Machine
end

