-- ==== Sys2Proof/Certificates/Slice0/Obligations.lean ====
section
/-! DEFINITION. Obligations: the statements for the provers, each a proposition about the model. The docstring names the
rule of spec/ a statement formalises; where a clause is the model's own choice it names the log entry. -/

open Sys2Proof Sys2Proof.Machine

/-! ### The Frame Decoder -/

/-- 95_test_vectors.md V8 rows a to d and V10: words written out from the spec decode to their instructions. -/
def Obligations.SpecFramesDecodeToTheirInstructions : Prop :=
  let k : Key := ⟨0xC4, 0xC6, 0xC0, 0x92, 0x40, 0x23, 0xDC, 0x96⟩
  decodeInstr k ⟨0xF5, 0xE4, 0x66, 0x20, 0x81, 0x46, 0xBF, 0x2A⟩ = .instr (.co2 400 zeroPad) ∧
  decodeInstr k ⟨0x35, 0xE4, 0xF6, 0x20, 0x10, 0x46, 0xBF, 0x0A⟩ = .instr (.temp 5000 zeroPad) ∧
  decodeInstr k ⟨0xA8, 0xE4, 0x86, 0x20, 0x07, 0x46, 0xBF, 0x82⟩ = .instr (.hum 4567 zeroPad) ∧
  decodeInstr k ⟨0x55, 0xE4, 0x4E, 0x21, 0x4B, 0x46, 0xBF, 0xDA⟩ = .instr (.unk 0x6D 0x0A5C zeroPad) ∧
  decodeInstr k ⟨0x50, 0x01, 0x90, 0xE1, 0x0D, 0x01, 0x02, 0x03⟩ = .instr (.co2 400 ⟨1, 2, 3⟩) ∧
  decodeTableWord 64 0x421388DD0D000000 = some (.temp 5000 zeroPad)

/-- R101: the pass-through test. KEY and bytes 5 to 7 play no part in it, and it alone decides whether the frame itself
or its transform is the candidate. -/
def Obligations.PassThroughTestComesFirst : Prop :=
  (∀ f : Frame, valid f = true ↔
    f.b4.toNat = 0x0D ∧ (f.b0.toNat + f.b1.toNat + f.b2.toNat) &&& 0xFF = f.b3.toNat) ∧
  (∀ (k : Key) (f : Frame), valid f = true → candidate k f = f) ∧
  (∀ (k : Key) (f : Frame), valid f = false → candidate k f = xform k f) ∧
  (∀ (k k' : Key) (f : Frame), valid f = true → decode k f = decode k' f) ∧
  (∀ (f : Frame) (x y z : Byte), valid { f with b5 := x, b6 := y, b7 := z } = valid f) ∧
  valid ⟨0x50, 0x01, 0x90, 0xE1, 0x0D, 0, 0, 0⟩ = true

/-- R102: step 1 scatters byte i to position S[i]; written out byte by byte; every position is written, so the first
contents of the buffer do not matter. -/
def Obligations.StepOneScattersByTheShuffleTable : Prop :=
  (byteIndices.map shuffle = [2, 4, 0, 7, 1, 6, 5, 3]) ∧
  (∀ (f : Frame) (i : Fin 8), (phase1 f).get (shuffle i) = f.get i) ∧
  (∀ f : Frame, phase1 f = ⟨f.b2, f.b4, f.b0, f.b7, f.b1, f.b6, f.b5, f.b3⟩) ∧
  (∀ p f : Frame, scatterOnto p f = phase1 f) ∧ Function.Bijective shuffle ∧
  phase1 ⟨0xF5, 0xE4, 0x66, 0x20, 0x81, 0x46, 0xBF, 0x2A⟩ = ⟨0x66, 0x81, 0xF5, 0x2A, 0xE4, 0xBF, 0x46, 0x20⟩

/-- R103: step 2 is the byte-wise XOR with the key, byte i against buffer position i after the permutation; with the
all-zero key it changes nothing; it is the only step that reads the key. -/
def Obligations.StepTwoMixesTheKey : Prop :=
  (∀ (k p : Frame) (i : Fin 8), ((phase2 k p).get i).toNat = (p.get i).toNat ^^^ (k.get i).toNat) ∧
  (∀ p : Frame, phase2 ⟨0, 0, 0, 0, 0, 0, 0, 0⟩ p = p) ∧
  (∀ (k : Key) (f : Frame), xform k f = subCtmp (phase3 (phase2 k (phase1 f)))) ∧
  phase2 ⟨0xC4, 0xC6, 0xC0, 0x92, 0x40, 0x23, 0xDC, 0x96⟩ ⟨0x66, 0x81, 0xF5, 0x2A, 0xE4, 0xBF, 0x46, 0x20⟩ =
    ⟨0xA2, 0x47, 0x35, 0xB8, 0xA4, 0x9C, 0x9A, 0xB6⟩

/-- R104: step 3 by the source's formula on unbounded integers and by bit positions, the two OR-ed parts never
overlapping; index -1 wraps to 7. -/
def Obligations.StepThreeMixesBitsAcrossBytes : Prop :=
  (∀ (p : Frame) (i : Fin 8), ((phase3 p).get i).toNat =
    (((p.get i).toNat >>> 3) ||| ((p.get ⟨(i.val + 7) % 8, Nat.mod_lt _ (by omega)⟩).toNat <<< 5)) &&& 0xFF) ∧
  (∀ (p : Frame) (i : Fin 8), ((phase3 p).get i).extractLsb' 0 5 = (p.get i).extractLsb' 3 5 ∧
    ((phase3 p).get i).extractLsb' 5 3 = (p.get (i - 1)).extractLsb' 0 3) ∧
  (∀ cur prev : Byte, (cur >>> 3) &&& (prev <<< 5) = 0) ∧
  (∀ p : Frame, (phase3 p).b0 = mixByte p.b0 p.b7) ∧
  phase3 ⟨0, 0, 0, 0, 0, 0, 0, 0⟩ = ⟨0, 0, 0, 0, 0, 0, 0, 0⟩ ∧
  phase3 ⟨0xFF, 0xFF, 0xFF, 0xFF, 0xFF, 0xFF, 0xFF, 0xFF⟩ = ⟨0xFF, 0xFF, 0xFF, 0xFF, 0xFF, 0xFF, 0xFF, 0xFF⟩ ∧
  phase3 ⟨0xA2, 0x47, 0x35, 0xB8, 0xA4, 0x9C, 0x9A, 0xB6⟩ = ⟨0xD4, 0x48, 0xE6, 0xB7, 0x14, 0x93, 0x93, 0x56⟩

/-- R105: step 4 is the source's nibble-swap formula on each byte of the constant C; the high and the low nibble change
places. -/
def Obligations.StepFourSwapsNibblesOfTheConstant : Prop :=
  constC = ⟨0x48, 0x74, 0x65, 0x6D, 0x70, 0x39, 0x39, 0x65⟩ ∧
  (∀ i : Fin 8, (ctmp.get i).toNat =
    (((constC.get i).toNat >>> 4) ||| ((constC.get i).toNat <<< 4)) &&& 0xFF) ∧
  (∀ c : Byte, (swapNibbles c).extractLsb' 0 4 = c.extractLsb' 4 4 ∧ (swapNibbles c).extractLsb' 4 4 = c.extractLsb' 0 4) ∧
  ctmp.get 0 = 0x84

/-- R106: step 5 is `(0x100 + phase3[i] - ctmp[i]) & 0xFF` byte by byte, the intermediate in 1..511, the result the
difference mod 256; the two corner cases. -/
def Obligations.StepFiveSubtractsByteWise : Prop :=
  (∀ (p : Frame) (i : Fin 8), ((subCtmp p).get i).toNat =
    (0x100 + (p.get i).toNat - (ctmp.get i).toNat) &&& 0xFF) ∧
  (∀ (p : Frame) (i : Fin 8), (ctmp.get i).toNat ≤ 0x100 + (p.get i).toNat ∧
    1 ≤ 0x100 + (p.get i).toNat - (ctmp.get i).toNat ∧ 0x100 + (p.get i).toNat - (ctmp.get i).toNat ≤ 511) ∧
  (∀ (p : Frame) (i : Fin 8), (((subCtmp p).get i).toNat : Int) =
    (((p.get i).toNat : Int) - ((ctmp.get i).toNat : Int)) % 256) ∧
  (∀ (p : Frame) (i : Fin 8), p.get i = ctmp.get i → (subCtmp p).get i = 0) ∧
  (∀ (p : Frame) (i : Fin 8), p.get i = 0 → ((subCtmp p).get i).toNat = (0x100 - (ctmp.get i).toNat) &&& 0xFF) ∧
  subCtmp ⟨0xD4, 0x48, 0xE6, 0xB7, 0x14, 0x93, 0x93, 0x56⟩ = ⟨0x50, 0x01, 0x90, 0xE1, 0x0D, 0, 0, 0⟩

/-- What the spec marks as its own derivations from the transform's formulas (R102, R104, R105, R106, R113 (a), (b),
(e)): S is its own inverse, so scatter and gather agree; step 3 is a rotate right by 3 of the 64-bit word whose most
significant byte is byte 0; the value of CT; steps 2 and 5 are byte-wise. -/
def Obligations.TransformFormulasHaveTheDerivedProperties : Prop :=
  (∀ i : Fin 8, shuffle (shuffle i) = i) ∧
  (∀ (f : Frame) (j : Fin 8), (phase1 f).get j = f.get (shuffle j)) ∧
  (∀ p : Frame, (phase3 p).toWord = p.toWord.rotateRight 3) ∧
  ctmp = ⟨0x84, 0x47, 0x56, 0xD6, 0x07, 0x93, 0x93, 0x56⟩ ∧
  subCtmp ⟨0, 0, 0, 0, 0, 0, 0, 0⟩ = ⟨0x7C, 0xB9, 0xAA, 0x2A, 0xF9, 0x6D, 0x6D, 0xAA⟩ ∧
  (∀ (p q : Frame) (i : Fin 8), p.get i = q.get i → (subCtmp p).get i = (subCtmp q).get i) ∧
  (∀ (k p q : Frame) (i : Fin 8), p.get i = q.get i → (phase2 k p).get i = (phase2 k q).get i)

/-- R108: the candidate is valid exactly when byte 4 is 0x0D and byte 3 is the 8-bit sum of bytes 0 to 2; the outcome is
ChecksumError exactly when it is not; bytes 5 to 7 are not examined. -/
def Obligations.ChecksumValidationDecidesTheOutcome : Prop :=
  (∀ d : Frame, valid d = true ↔
    d.b4.toNat = 0x0D ∧ (d.b0.toNat + d.b1.toNat + d.b2.toNat) % 256 = d.b3.toNat) ∧
  (∀ d : Frame, d.b0.toNat + d.b1.toNat + d.b2.toNat ≤ 765) ∧
  (∀ (k : Key) (f : Frame), (decode k f).tag = 1 ↔ valid (candidate k f) = false) ∧
  (∀ (d : Frame) (x y z : Byte), valid { d with b5 := x, b6 := y, b7 := z } = valid d) ∧
  valid ⟨0x50, 0x01, 0x90, 0xE1, 0x0D, 0, 0, 0⟩ = true ∧
  valid ⟨0x54, 0x51, 0x82, 0x3C, 0x41, 0x71, 0xE8, 0x3C⟩ = false

/-- R109: on success the Field is byte 0 and the big-endian number of bytes 1 and 2; bytes 3 to 7 do not reach it. -/
def Obligations.FieldIsOpCodeAndBigEndianValue : Prop :=
  (∀ (k : Key) (f : Frame), valid (candidate k f) = true →
    ∃ v : Value, decode k f = .field ⟨(candidate k f).b0, v⟩ ∧
      v.toNat = ((candidate k f).b1.toNat <<< 8) ||| (candidate k f).b2.toNat ∧
      v.toNat = 256 * (candidate k f).b1.toNat + (candidate k f).b2.toNat) ∧
  (∀ d e : Frame, d.b0 = e.b0 → d.b1 = e.b1 → d.b2 = e.b2 → fieldOf d = fieldOf e) ∧
  (∀ k : Key, decode k ⟨0x50, 0x01, 0x90, 0xE1, 0x0D, 0, 0, 0⟩ = .field ⟨0x50, 400⟩)

/-- R110: an invalid candidate gives ChecksumError with the raw frame and the candidate; pushing such a frame gives no
Field and no Reading and changes no state (the stream index counts it, R27). -/
def Obligations.ChecksumErrorCarriesRawFrameAndCandidate : Prop :=
  (∀ (k : Key) (f : Frame) (e : ErrorReport), decode k f = .checksumError e ↔
    valid (candidate k f) = false ∧ e = ⟨f, candidate k f⟩) ∧
  (∀ (k : Key) (f : Frame) (s : State), s.key = some k → valid (candidate k f) = false →
    hostPush f s = .next { s with n := s.n + 1, out := ⟨none, some ⟨f, candidate k f⟩, none⟩ }) ∧
  decode ⟨0xC4, 0xC6, 0xC0, 0x92, 0x40, 0x23, 0xDC, 0x96⟩ ⟨0, 0, 0, 0, 0, 0, 0, 0⟩ =
    .checksumError ⟨⟨0, 0, 0, 0, 0, 0, 0, 0⟩, ⟨0x54, 0x51, 0x82, 0x3C, 0x41, 0x71, 0xE8, 0x3C⟩⟩

/-- R108, R110, conflict C3 (the spec's own derivation): a plaintext-valid frame cannot fail, so ChecksumError is
reached only on the transform path, its `dec` is the transform of its `raw`, and its `raw` is never plaintext-valid. -/
def Obligations.ChecksumErrorOnlyOnTheTransformPath : Prop :=
  ∀ (k : Key) (f : Frame) (e : ErrorReport), decode k f = .checksumError e ↔
    valid f = false ∧ valid (xform k f) = false ∧ e = ⟨f, xform k f⟩

/-- R82, R100: the decoder of instructions and the decoder of Fields are one decoder: an instruction carries exactly the
Field, is well-formed, and the errors are the same. -/
def Obligations.InstructionDecoderAgreesWithFieldDecoder : Prop :=
  (∀ (k : Key) (f : Frame) (i : Instr), decodeInstr k f = .instr i →
    i.wellFormed = true ∧ decode k f = .field (fieldOfInstr i)) ∧
  (∀ (k : Key) (f : Frame) (fd : Field), decode k f = .field fd →
    ∃ i : Instr, decodeInstr k f = .instr i ∧ fieldOfInstr i = fd) ∧
  (∀ (k : Key) (f : Frame) (e : ErrorReport), decodeInstr k f = .checksumError e ↔ decode k f = .checksumError e)

/-- R83: a decoder written from spec/opcode_table.json alone (match, mask, chk_rule, op_excludes, rows in order) accepts
the same candidates and gives the same instruction. -/
def Obligations.TableDecoderAgreesWithDecoder : Prop :=
  ∀ d : Frame, tableDecode d.toWord = (decodeCandidate d).map Instr.mnemonic

/-- R84: a candidate is illegal exactly when its terminator or its sum is wrong, whatever its op-code; every op-code is
legal with every value and every pad. -/
def Obligations.EveryOpCodeIsLegal : Prop :=
  (∀ d : Frame, decodeCandidate d = none ↔
    d.b4 ≠ 0x0D ∨ (d.b0.toNat + d.b1.toNat + d.b2.toNat) &&& 0xFF ≠ d.b3.toNat) ∧
  (∀ (op : OpCode) (v : Value) (pad : Pad), ∃ i : Instr,
    decodeCandidate (plainFrame op v pad) = some i ∧ opOf i = op ∧ valueOperand i = v ∧
      ((∃ w p, i = .unk op w p) ↔ knownOp op = false))

/-- R85, R113 (c): for every key the transform is a bijection on frames, with inverse ENC. -/
def Obligations.TransformAndEncAreInverse : Prop :=
  ∀ (k : Key) (d f : Frame), xform k (enc k d) = d ∧ enc k (xform k f) = f

/-- R113 (d): the key can be folded into the raw frame. -/
def Obligations.KeyFoldsIntoTheRawFrame : Prop :=
  ∀ (k : Key) (f : Frame),
    xform k f = xform ⟨0, 0, 0, 0, 0, 0, 0, 0⟩ (Frame.ofFn fun i => f.get i ^^^ k.get (shuffle i))

/-- R113 (f): the plaintext-valid frames, and for each key the frames whose transform is valid, are each in bijection
with the 48-bit words: 2^48 of the 2^64 frames. -/
def Obligations.ValidFramesAreTwoToTheFortyEight : Prop :=
  (∃ g : BitVec 48 → Frame, Function.Injective g ∧ ∀ f : Frame, valid f = true ↔ ∃ w, g w = f) ∧
  (∀ k : Key, ∃ g : BitVec 48 → Frame, Function.Injective g ∧ ∀ f : Frame, valid (xform k f) = true ↔ ∃ w, g w = f)

/-- R81, R114 (the spec's own derivation): a frame valid in both readings is read as plaintext; under the source's
example key the two orders of the tests differ on `50 E4 F4 28 0D 00 00 A2`. -/
def Obligations.DualValidFrameIsReadAsPlaintext : Prop :=
  (∀ (k : Key) (f : Frame), valid f = true → valid (xform k f) = true → decode k f = .field (fieldOf f)) ∧
  let k : Key := ⟨0xC4, 0xC6, 0xC0, 0x92, 0x40, 0x23, 0xDC, 0x96⟩
  let f : Frame := ⟨0x50, 0xE4, 0xF4, 0x28, 0x0D, 0, 0, 0xA2⟩
  valid f = true ∧ valid (xform k f) = true ∧ fieldOf f = ⟨0x50, 0xE4F4⟩ ∧ fieldOf (xform k f) = ⟨0x42, 0xD21C⟩

/-! ### Encoding -/

/-- R71, R76, R82, R86: under every key the plaintext frame of a well-formed instruction decodes to that instruction,
every operand and the pad at every value. -/
def Obligations.DecodeOfEncodeIsTheInstruction : Prop :=
  ∀ (k : Key) (i : Instr), i.wellFormed = true → decodeInstr k (encode i) = .instr i

/-- R71, R76: no bit of a legal candidate is dropped: encoding the instruction a candidate decodes to gives the
candidate back. -/
def Obligations.EncodeOfDecodeIsTheCandidate : Prop :=
  ∀ (d : Frame) (i : Instr), decodeCandidate d = some i → i.wellFormed = true ∧ encode i = d

/-- R81, R85, R86: a `.wire` line of a well-formed instruction is an error exactly when its frame is plaintext-valid;
otherwise its frame decodes to the instruction under the run's key. -/
def Obligations.WireLinesDecodeToTheirInstruction : Prop :=
  ∀ (k : Key) (i : Instr), i.wellFormed = true →
    ((AsmLine.wire i).assemble k = none ↔ valid (enc k (encode i)) = true) ∧
    ∀ w : Frame, (AsmLine.wire i).assemble k = some w → w = enc k (encode i) ∧ decodeInstr k w = .instr i

/-- R7, R161: on a 64-bit port byte i of a frame is bits [63 - 8 i : 56 - 8 i], and the two views are one to one. -/
def Obligations.PortWordsCarryByteZeroFirst : Prop :=
  (∀ (f : Frame) (i : Fin 8), f.toWord.extractLsb' (56 - 8 * i.val) 8 = f.get i) ∧
  (∀ f : Frame, Frame.ofWord f.toWord = f) ∧ (∀ w : Word64, (Frame.ofWord w).toWord = w)

/-! ### The Reading Accumulator -/

/-- R131: CO2 writes ACC[0x50]; with TEMP present it emits the Reading and empties ACC; nothing else of the state
changes (`fsm` ends Collecting on the emitting path). -/
def Obligations.Co2WritesItsEntryAndCompletesWithTemp : Prop :=
  (∀ (v : Value) (pad : Pad) (s : State),
    (s.acc.get 0x42 = none → ∃ a : Acc,
      exec (.co2 v pad) s = .next { s with acc := a, out := ⟨some ⟨0x50, v⟩, none, none⟩ } ∧
      ∀ op, a.get op = if op = 0x50 then some v else s.acc.get op) ∧
    (∀ t : Value, s.acc.get 0x42 = some t → ∃ a : Acc,
      exec (.co2 v pad) s = .next { s with
        acc := a, fsm := .collecting, out := ⟨some ⟨0x50, v⟩, none, some ⟨v, t, s.acc.get 0x44⟩⟩ } ∧
      ∀ op, a.get op = none)) ∧
  (∀ (pad : Pad) (s : State), s.acc = ⟨[(0x42, 0x1388)]⟩ →
    exec (.co2 400 pad) s = .next { s with
      acc := Acc.empty, fsm := .collecting, out := ⟨some ⟨0x50, 400⟩, none, some ⟨400, 0x1388, none⟩⟩ })

/-- R132: TEMP writes ACC[0x42]; with CO2 present it emits the Reading and empties ACC; values below 4371 are below zero
Celsius and are ordinary. -/
def Obligations.TempWritesItsEntryAndCompletesWithCo2 : Prop :=
  (∀ (v : Value) (pad : Pad) (s : State),
    (s.acc.get 0x50 = none → ∃ a : Acc,
      exec (.temp v pad) s = .next { s with acc := a, out := ⟨some ⟨0x42, v⟩, none, none⟩ } ∧
      ∀ op, a.get op = if op = 0x42 then some v else s.acc.get op) ∧
    (∀ c : Value, s.acc.get 0x50 = some c → ∃ a : Acc,
      exec (.temp v pad) s = .next { s with
        acc := a, fsm := .collecting, out := ⟨some ⟨0x42, v⟩, none, some ⟨c, v, s.acc.get 0x44⟩⟩ } ∧
      ∀ op, a.get op = none)) ∧
  (∀ v : Value, v.toNat < 4371 ↔ temperatureC v < 0) ∧ temperatureC 0 = -273.15 ∧
  (∀ (pad : Pad) (s : State), s.acc = ⟨[(0x50, 200)]⟩ →
    exec (.temp 4373 pad) s = .next { s with
      acc := Acc.empty, fsm := .collecting, out := ⟨some ⟨0x42, 4373⟩, none, some ⟨200, 4373, none⟩⟩ }) ∧
  temperatureC 4373 = 0.1625

/-- R133: HUM writes ACC[0x44]; it completes a Reading only where both mandatory entries are already present, which no
run from reset reaches. -/
def Obligations.HumWritesItsEntry : Prop :=
  (∀ (v : Value) (pad : Pad) (s : State),
    (s.acc.get 0x50 = none ∨ s.acc.get 0x42 = none → ∃ a : Acc,
      exec (.hum v pad) s = .next { s with acc := a, out := ⟨some ⟨0x44, v⟩, none, none⟩ } ∧
      ∀ op, a.get op = if op = 0x44 then some v else s.acc.get op) ∧
    (∀ c t : Value, s.acc.get 0x50 = some c → s.acc.get 0x42 = some t → ∃ a : Acc,
      exec (.hum v pad) s = .next { s with
        acc := a, fsm := .collecting, out := ⟨some ⟨0x44, v⟩, none, some ⟨c, t, some v⟩⟩ } ∧
      ∀ op, a.get op = none)) ∧
  (∀ (v : Value) (pad : Pad) (s : State), Inv s →
    ∃ t, exec (.hum v pad) s = .next t ∧ t.out.reading = none ∧ t.acc.get 0x44 = some v) ∧
  (∀ (pad : Pad) (s : State), s.acc = ⟨[(0x50, 400)]⟩ → ∃ t, exec (.hum 4567 pad) s = .next t ∧
    t.acc = ⟨[(0x44, 4567), (0x50, 400)]⟩ ∧ t.out.reading = none)

/-- R134 (that UNK stores is the spec's decision D5, log 8): UNK, any op-code but the three named, stores its value at
ACC[op]; its value is in no Reading; it completes only where both mandatory entries are already present. -/
def Obligations.UnkWritesItsEntry : Prop :=
  (∀ (op : OpCode) (v : Value) (pad : Pad) (s : State), (Instr.unk op v pad).wellFormed = true →
    (s.acc.get 0x50 = none ∨ s.acc.get 0x42 = none → ∃ a : Acc,
      exec (.unk op v pad) s = .next { s with acc := a, out := ⟨some ⟨op, v⟩, none, none⟩ } ∧
      ∀ op', a.get op' = if op' = op then some v else s.acc.get op') ∧
    (∀ c t : Value, s.acc.get 0x50 = some c → s.acc.get 0x42 = some t → ∃ a : Acc,
      exec (.unk op v pad) s = .next { s with
        acc := a, fsm := .collecting, out := ⟨some ⟨op, v⟩, none, some ⟨c, t, s.acc.get 0x44⟩⟩ } ∧
      ∀ op', a.get op' = none)) ∧
  (∀ (pad : Pad) (s : State), s.acc = Acc.empty →
    exec (.unk 0x6D 0x0A5C pad) s = .next { s with
      acc := ⟨[(0x6D, 0x0A5C)]⟩, out := ⟨some ⟨0x6D, 0x0A5C⟩, none, none⟩ })

/-- R135: the completion predicate is that 0x50 and 0x42 are both present after the upsert; other entries do not enter
it and the order of arrival does not matter. -/
def Obligations.CompletionNeedsExactlyTheMandatoryPair : Prop :=
  (∀ a : Acc, complete a = true ↔ a.get 0x50 ≠ none ∧ a.get 0x42 ≠ none) ∧
  (∀ (a : Acc) (op : OpCode) (v : Value), op ≠ 0x50 → op ≠ 0x42 → complete (a.upsert op v) = complete a) ∧
  (∀ (a : Acc) (c t : Value), complete ((a.upsert 0x50 c).upsert 0x42 t) = true ∧
    complete ((a.upsert 0x42 t).upsert 0x50 c) = true) ∧
  (∀ (i : Instr) (s : State), ∃ t, exec i s = .next t ∧
    (t.out.reading ≠ none ↔ complete (s.acc.upsert (opOf i) (valueOperand i)) = true))

/-- R136, R137: a completing step emits one Reading built from ACC after the upsert, humidity `none` where it is absent,
and leaves every one of the 256 entries absent; a step that does not complete emits none. -/
def Obligations.EmissionReportsThenClears : Prop :=
  ∀ (i : Instr) (s : State),
    let a := s.acc.upsert (opOf i) (valueOperand i)
    ∃ t, exec i s = .next t ∧
      (complete a = true → ∃ r : Reading, t.out.reading = some r ∧ a.get 0x50 = some r.co2Ppm ∧
        a.get 0x42 = some r.tempRaw ∧ r.humRaw = a.get 0x44 ∧ (∀ op, t.acc.get op = none) ∧
        t.acc = State.reset.acc) ∧
      (complete a = false → t.out.reading = none)

/-- R138, R139, R140 (exact rationals are the spec's decision D7, log 12): the physical values of a Reading as exact
rationals, with their ranges and the worked examples; the ports carry the raw values. -/
def Obligations.ReadingUnitsAreExactRationals : Prop :=
  (∀ r : Reading, readingCo2Ppm r = r.co2Ppm.toNat ∧ readingCo2Ppm r ≤ 65535) ∧
  (∀ v : Value, temperatureC v = (v.toNat : Rat) / 16 - 27315 / 100 ∧
    temperatureC v = (5 * (v.toNat : Rat) - 21852) / 80 ∧
    -273.15 ≤ temperatureC v ∧ temperatureC v ≤ 3822.7875) ∧
  temperatureC 0 = -273.15 ∧ temperatureC 65535 = 3822.7875 ∧ temperatureC 0x1388 = 39.35 ∧
  (∀ v : Value, humidityPct v = (v.toNat : Rat) / 100 ∧ 0 ≤ humidityPct v ∧ humidityPct v ≤ 655.35) ∧
  humidityPct 0 = 0 ∧ humidityPct 65535 = 655.35 ∧ humidityPct 4567 = 45.67 ∧
  (∀ r : Reading, readingHumidityPct r = none ↔ r.humRaw = none) ∧
  (∀ (r : Reading) (h : Value), r.humRaw = some h → readingHumidityPct r = some (humidityPct h)) ∧
  (∀ (o : Outputs) (r : Reading), o.reading = some r →
    o.rdCo2 = some r.co2Ppm ∧ o.rdTemp = some r.tempRaw ∧ readingTemperatureC r = temperatureC r.tempRaw)

/-- The frame of every instruction: KEY, the stream index and the requests of later cycles are unchanged, no error is
raised, the Field is an output, and every ACC entry but the instruction's own is unchanged unless the step emits a
Reading, which empties ACC; `fsm` is unchanged unless the step emits, and then Collecting (R130, R137, R145, R147). -/
def Obligations.InstructionFrame : Prop :=
  ∀ (i : Instr) (s : State), ∃ t, exec i s = .next t ∧ t.key = s.key ∧ t.n = s.n ∧ t.inputs = s.inputs ∧
    t.out.err = none ∧ t.out.field = some ⟨opOf i, valueOperand i⟩ ∧
    (t.out.reading = none → t.fsm = s.fsm ∧ t.acc.get (opOf i) = some (valueOperand i) ∧
      ∀ op, op ≠ opOf i → t.acc.get op = s.acc.get op) ∧
    (t.out.reading ≠ none → t.fsm = .collecting ∧ ∀ op, t.acc.get op = none)

/-- R142: a Field followed by another of the same op-code, no Reading between them, leaves no trace: the second step is
what it would have been without the first. Then the source's example. -/
def Obligations.LastWriteWinsWithinACycle : Prop :=
  (∀ (i j : Instr) (s t : State), exec i s = .next t → t.out.reading = none → opOf i = opOf j →
    exec j t = exec j s) ∧
  (∀ (p q r : Pad) (s : State), s.acc = Acc.empty → ∃ t u w, exec (.co2 100 p) s = .next t ∧
    exec (.co2 200 q) t = .next u ∧ exec (.temp 4373 r) u = .next w ∧ w.out.reading = some ⟨200, 4373, none⟩)

/-- R141: no timeout. A run emits no Reading while one of the mandatory op-codes is neither held nor received, however
long it is and whatever else it contains; and no step but an emission or a RESET makes a present entry absent. -/
def Obligations.NoReadingWithoutBothMandatoryFields : Prop :=
  (∀ (s : State) (op : OpCode) (k : Nat), op = 0x50 ∨ op = 0x42 → s.acc.get op = none →
    (∀ o ∈ runOutputs k s, ∀ v : Value, o.field ≠ some ⟨op, v⟩) → runReadings k s = []) ∧
  (∀ (s t : State) (op : OpCode), step s = .next t → (portsNow s).op ≠ .reset → t.out.reading = none →
    s.acc.get op ≠ none → t.acc.get op ≠ none)

/-- R144 (the spec's own derivation): under the invariant of runs from reset a Reading is emitted exactly by a CO2 step
with TEMP present or a TEMP step with CO2 present, and from one emission to the next there is at least one CO2 step and
one TEMP step. -/
def Obligations.ReadingsComeFromCo2OrTempSteps : Prop :=
  (∀ (i : Instr) (s : State), Inv s → i.wellFormed = true → ∃ t, exec i s = .next t ∧
    (t.out.reading ≠ none ↔
      (∃ v p, i = .co2 v p ∧ s.acc.get 0x42 ≠ none) ∨ (∃ v p, i = .temp v p ∧ s.acc.get 0x50 ≠ none))) ∧
  (∀ (s : State) (k : Nat), Inv s → s.out.reading ≠ none → runReadings k s ≠ [] →
    (∃ o ∈ runOutputs k s, ∃ v, o.field = some ⟨0x50, v⟩) ∧ (∃ o ∈ runOutputs k s, ∃ v, o.field = some ⟨0x42, v⟩))

/-! ### Steps and runs -/

/-- R36: a Field comes only from a candidate whose checksum validates; a frame that is not valid leaves ACC as it was; a
Reading is emitted only where both mandatory op-codes are present after the upsert, and always then. -/
def Obligations.OnlyValidFramesPopulateAcc : Prop :=
  (∀ (s t : State) (fd : Field), step s = .next t → t.out.field = some fd →
    ∃ f k, (portsNow s).op = .push f ∧ s.key = some k ∧ valid (candidate k f) = true ∧ fd = fieldOf (candidate k f)) ∧
  (∀ (s : State) (f : Frame) (k : Key), (portsNow s).op = .push f → s.key = some k → valid (candidate k f) = false →
    ∃ t, step s = .next t ∧ t.acc = s.acc ∧ t.out.field = none ∧ t.out.reading = none) ∧
  (∀ (s : State) (f : Frame) (k : Key), (portsNow s).op = .push f → s.key = some k → valid (candidate k f) = true →
    ∃ t, step s = .next t ∧ (t.out.reading ≠ none ↔
      ∀ m : OpCode, m = 0x50 ∨ m = 0x42 → m = (candidate k f).b0 ∨ s.acc.get m ≠ none))

/-- R145: the state machine's table. On ChecksumError only the diagnostic output; on a Field that does not complete the
upsert; on one that completes the upsert, Complete, then in the same step the Reading and the clear and Collecting
again. The stream index advances by 1 on every row (R27). That the port values are a queue of the state, of which a step
consumes one entry, is the model's choice (log 1). -/
def Obligations.StateMachineFollowsItsTable : Prop :=
  ∀ (s : State) (f : Frame) (k : Key), s.fsm = .collecting → (portsNow s).op = .push f → s.key = some k →
    (∀ e, decode k f = .checksumError e → ∃ t, step s = .next t ∧ t.fsm = .collecting ∧ t.acc = s.acc ∧
      t.n = s.n + 1 ∧ t.out = ⟨none, some e, none⟩) ∧
    (∀ fd, decode k f = .field fd → complete (s.acc.upsert fd.op fd.value) = false → ∃ t, step s = .next t ∧
      t.fsm = .collecting ∧ t.acc = s.acc.upsert fd.op fd.value ∧ t.n = s.n + 1 ∧ t.out = ⟨some fd, none, none⟩) ∧
    (∀ fd, decode k f = .field fd → complete (s.acc.upsert fd.op fd.value) = true →
      ∃ c r, c = enterComplete (upsertField fd (nextIndex (consumePorts s))) ∧ c.fsm = .complete ∧
        c.acc = s.acc.upsert fd.op fd.value ∧ readingOf c.acc = some r ∧ step s = .next (emitReadingAndClear fd c) ∧
        (emitReadingAndClear fd c).fsm = .collecting ∧ (emitReadingAndClear fd c).acc = Acc.empty ∧
        (emitReadingAndClear fd c).n = s.n + 1 ∧ (emitReadingAndClear fd c).out = ⟨some fd, none, some r⟩)

/-- R25, R172: ACC is written only by a Field, at the one entry its op-code selects, by the clear at an emission, and by
RESET; every other step leaves it exactly as it was. -/
def Obligations.AccIsWrittenOnlyByFieldsEmissionsAndReset : Prop :=
  ∀ s t : State, step s = .next t → t.acc = s.acc ∨
    (∃ fd, t.out.field = some fd ∧ t.out.reading = none ∧ t.acc.get fd.op = some fd.value ∧
      ∀ op, op ≠ fd.op → t.acc.get op = s.acc.get op) ∨
    ((t.out.reading ≠ none ∨ (portsNow s).op = .reset) ∧ ∀ op, t.acc.get op = none)

/-- When a key is loaded and the ports carry a PUSH of a frame that decodes to an instruction, the step is exactly
`exec` of that instruction on the state with the stream index advanced (R146, R164, R27) and, by the model's choice
(log 1), the port values consumed. -/
def Obligations.StepRunsTheDecodedInstruction : Prop :=
  ∀ (s : State) (k : Key) (f : Frame) (i : Instr), s.key = some k → (portsNow s).op = .push f →
    decodeInstr k f = .instr i → step s = exec i { s with inputs := s.inputs.tail, n := s.n + 1 }

/-- R146: a PUSH step is the reference step on ACC as a mapping, written from the decoder of R115 alone; KEY is
unchanged, the stream index advances (R27) and Collecting stays Collecting (R26). That the port values are a queue of
the state, of which the step consumes one entry, is the model's choice (log 1). -/
def Obligations.PushStepIsTheReferenceStep : Prop :=
  ∀ (s : State) (k : Key) (f : Frame), s.key = some k → (portsNow s).op = .push f →
    ∃ t, step s = .next t ∧ t.acc.get = (refStep k s.acc.get f).1 ∧ t.out = (refStep k s.acc.get f).2 ∧
      t.key = s.key ∧ t.n = s.n + 1 ∧ t.inputs = s.inputs.tail ∧ (s.fsm = .collecting → t.fsm = .collecting)

/-- R57: frames are processed one at a time in the order supplied: running the machine on a list of PUSHes is the fold
of the reference step over it, final ACC and outputs in order, from any keyed state; the stream index counts the frames
(R27). That the frames wait in a queue of the state, empty after the run, is the model's choice (log 1). -/
def Obligations.RunOnFramesIsTheFoldOfTheStep : Prop :=
  ∀ (fs : List Frame) (s : State) (k : Key), s.key = some k → s.inputs = fs.map pushPorts →
    ∃ t, core.run fs.length s = .next t ∧ t.acc.get = (refRun k s.acc.get fs).1 ∧
      runOutputs fs.length s = (refRun k s.acc.get fs).2 ∧ t.n = s.n + fs.length ∧ t.key = some k ∧ t.inputs = []

/-- R143, R186: a ChecksumError step leaves KEY, key_valid, ACC and fsm as they were; only the stream index moves on
(R27); its whole effect is the diagnostic output. That the step consumes one entry of a queue of port values is the
model's choice (log 1). -/
def Obligations.ChecksumErrorChangesNothing : Prop :=
  ∀ (s : State) (k : Key) (f : Frame) (e : ErrorReport), s.key = some k → (portsNow s).op = .push f →
    decode k f = .checksumError e →
    step s = .next { s with inputs := s.inputs.tail, n := s.n + 1, out := ⟨none, some e, none⟩ }

/-- R187: any number of consecutive ChecksumErrors is allowed and none changes the handling of what follows: after them
the state is what it was, but for the stream index (R27), the last output and, by the model's choice (log 1), the
consumed port values. -/
def Obligations.AnyNumberOfChecksumErrorsIsHarmless : Prop :=
  ∀ (fs : List Frame) (rest : List PortsIn) (s : State) (k : Key), s.key = some k →
    s.inputs = fs.map pushPorts ++ rest → (∀ f ∈ fs, (decode k f).tag = 1) →
    ∃ o : Outputs, core.run fs.length s = .next { s with inputs := rest, n := s.n + fs.length, out := o }

/-- R162 (the spec's decision D14): RESET wins over the other requests of its cycle and gives every piece of state its
reset value, no strobe asserted; a PUSH is then refused until LOADKEY. That the requests of
later cycles wait in the state and stay is the model's choice (log 1, log 11). -/
def Obligations.ResetGivesTheResetState : Prop :=
  ∀ s : State, (portsNow s).rst = true → ∃ t, step s = .next t ∧ t.fsm = .collecting ∧
    (∀ op, t.acc.get op = none) ∧ t.keyValid = false ∧ t.n = 0 ∧ t.out = Outputs.quiet ∧
    t = { State.reset with inputs := s.inputs.tail } ∧ complete t.acc = false ∧
    (∀ f, (portsNow t).op = .push f → step t = .refused .pushBeforeKey)

/-- R163 (the spec's decision D4): LOADKEY writes KEY and key_valid where key_valid is 0, leaves ACC and fsm, and has no
output; where key_valid is 1 it is refused; after a RESET it is taken again. The consumed port values are the model's
choice (log 1). -/
def Obligations.LoadKeyIsWriteOnce : Prop :=
  (∀ (s : State) (k : Key), (portsNow s).op = .loadKey k → s.keyValid = false →
    step s = .next { s with key := some k, inputs := s.inputs.tail, out := Outputs.quiet }) ∧
  (∀ (s : State) (k : Key), (portsNow s).op = .loadKey k → s.keyValid = true → step s = .refused .secondLoadKey) ∧
  (∀ (s : State) (k : Key) (rest : List PortsIn), s.inputs = resetPorts :: loadKeyPorts k :: rest →
    ∃ t, core.run 2 s = .next t ∧ t.key = some k)

/-- R165 (the spec's decision D2): any number of idle cycles changes no state and asserts no strobe. The consumed port
values are the model's choice (log 1). -/
def Obligations.IdleCyclesChangeNothing : Prop :=
  ∀ (m : Nat) (rest : List PortsIn) (s : State), s.inputs = List.replicate (m + 1) idlePorts ++ rest →
    core.run (m + 1) s = .next { s with inputs := rest, out := Outputs.quiet } ∧
    runOutputs (m + 1) s = List.replicate (m + 1) Outputs.quiet

/-- R170, R188, U17 (the spec's decisions D4, D20; log 9): a step is refused exactly on the host misuses, each under its
own name, and no step faults. -/
def Obligations.StepRefusesExactlyTheHostMisuses : Prop :=
  ∀ s : State,
    (∀ r : Refusal, step s = .refused r ↔
      ((∃ f, (portsNow s).op = .push f) ∧ s.keyValid = false ∧ r = .pushBeforeKey) ∨
      ((∃ k, (portsNow s).op = .loadKey k) ∧ s.keyValid = true ∧ r = .secondLoadKey) ∨
      ((portsNow s).rst = false ∧ (portsNow s).keyWe = true ∧ (portsNow s).frameValid = true ∧
        r = .loadKeyWithPush)) ∧
    (∀ x : Fault, step s ≠ .fault x)

/-- R170 (the spec's table; log 9): a host that keeps its duties is never refused: whatever frames it pushes, for
however long, the run goes on. -/
def Obligations.ObeyingHostIsNeverRefused : Prop :=
  ∀ (k : Nat) (s : State), hostObeys s.keyValid (s.inputs.map PortsIn.op) = true → ∃ t, core.run k s = .next t

/-- R21, R172 (the spec's decisions D4, D24): only LOADKEY and RESET reach the key: every other step, whatever its
frame, leaves KEY and key_valid as they were, and a key once loaded changes only by RESET. -/
def Obligations.KeyIsImmutableButForReset : Prop :=
  ∀ s t : State, step s = .next t →
    (t.key = s.key ∨ (∃ k, (portsNow s).op = .loadKey k ∧ s.key = none ∧ t.key = some k) ∨
      ((portsNow s).op = .reset ∧ t.key = none)) ∧
    (s.keyValid = true → (portsNow s).op ≠ .reset → t.key = s.key)

/-- R33 (the spec's own derivation): every output of a step, and the ACC and KEY it leaves, is a function of KEY, ACC
before the step and the request: states that agree on these cannot be told apart by a step. -/
def Obligations.StepDependsOnKeyAccAndRequestOnly : Prop :=
  ∀ s t s' : State, s.key = t.key → s.acc = t.acc → (portsNow s).op = (portsNow t).op → step s = .next s' →
    ∃ t', step t = .next t' ∧ t'.out = s'.out ∧ t'.acc = s'.acc ∧ t'.key = s'.key

/-- R134, decision D5: what UNK entries hold can be seen at no output, at this step or any later one: states that differ
only there take steps with equal outputs to states that differ only there; so a block that ignores UNK has the same
outputs. -/
def Obligations.UnknownEntriesAreUnobservable : Prop :=
  (∀ s t s' : State, SameButUnknown s t → step s = .next s' → ∃ t', step t = .next t' ∧ SameButUnknown s' t') ∧
  (∀ (s t : State) (k : Nat), SameButUnknown s t → runOutputs k s = runOutputs k t) ∧
  (∀ (op : OpCode) (v : Value) (pad : Pad) (s : State), (Instr.unk op v pad).wellFormed = true →
    complete s.acc = false → ∃ t, exec (.unk op v pad) s = .next t ∧
      SameButUnknown t { s with out := ⟨some ⟨op, v⟩, none, none⟩ })

/-- R161 (the spec's own derivation): `field_valid` and `err_valid` are never both 1 and `rd_valid` implies
`field_valid`, after every step from every state; `rd_hum_valid` is 1 exactly where
the humidity is present. That it is absent while `rd_valid` is 0 is the model's choice (log 21); no clause rests on it. -/
def Obligations.OutputStrobesAreExclusive : Prop :=
  ∀ s t : State, step s = .next t →
    ¬ (t.out.fieldValid = true ∧ t.out.errValid = true) ∧ (t.out.rdValid = true → t.out.fieldValid = true) ∧
    (t.out.rdHumValid = some true ↔ t.out.rdHum ≠ none)

/-- R35, R200 (the spec's decisions D4, D6, D14): the state after reset, every piece of it. `inputs` empty is the
model's choice (log 1). -/
def Obligations.ResetStateIsAsTheSpecSays : Prop :=
  State.reset.fsm = .collecting ∧ (∀ op, State.reset.acc.get op = none ∧ State.reset.acc.validBit op = false) ∧
  State.reset.keyValid = false ∧ State.reset.key = none ∧ State.reset.n = 0 ∧ State.reset.inputs = [] ∧
  State.reset.out.fieldValid = false ∧ State.reset.out.errValid = false ∧ State.reset.out.rdValid = false

/-- The invariant holds after reset. -/
def Obligations.InvariantHoldsAtReset : Prop := Inv State.reset

/-- Every step keeps the invariant, from every state that has it: Collecting at step boundaries (R26), the mandatory
pair never both present (R37), ACC in canonical form (log 5), nothing collected without a key (R200), ACC empty after a
Reading (R137), outputs in order (R161). -/
def Obligations.EveryStepKeepsTheInvariant : Prop :=
  ∀ s t : State, Inv s → step s = .next t → Inv t

/-- Register files in canonical form are equal exactly when every entry is: the form keeps one list for each ACC (log
5), and every operation on ACC keeps it. -/
def Obligations.RegisterFileFormIsCanonical : Prop :=
  (∀ a b : Acc, a.wf = true → b.wf = true → (∀ op, a.get op = b.get op) → a = b) ∧
  (∀ (a : Acc) (op : OpCode) (v : Value), a.wf = true → (a.upsert op v).wf = true) ∧
  (∀ (a : Acc) (op op' : OpCode) (v : Value), (a.upsert op v).get op' = if op' = op then some v else a.get op') ∧
  Acc.empty.wf = true
end

