-- ==== Sys2Proof/Laws/State.lean ====
section
/-! SUPPORT. Laws/State: one lemma per field per update, so that no proof unfolds a record update. -/

namespace Sys2Proof.Machine

section nextIndex
variable (s : State)
@[simp] theorem nextIndex_key : (nextIndex s).key = s.key := rfl
@[simp] theorem nextIndex_acc : (nextIndex s).acc = s.acc := rfl
@[simp] theorem nextIndex_fsm : (nextIndex s).fsm = s.fsm := rfl
@[simp] theorem nextIndex_n : (nextIndex s).n = s.n + 1 := rfl
@[simp] theorem nextIndex_inputs : (nextIndex s).inputs = s.inputs := rfl
@[simp] theorem nextIndex_out : (nextIndex s).out = s.out := rfl
end nextIndex

section upsertField
variable (f : Field) (s : State)
@[simp] theorem upsertField_key : (upsertField f s).key = s.key := rfl
@[simp] theorem upsertField_acc : (upsertField f s).acc = s.acc.upsert f.op f.value := rfl
@[simp] theorem upsertField_fsm : (upsertField f s).fsm = s.fsm := rfl
@[simp] theorem upsertField_n : (upsertField f s).n = s.n := rfl
@[simp] theorem upsertField_inputs : (upsertField f s).inputs = s.inputs := rfl
@[simp] theorem upsertField_out : (upsertField f s).out = s.out := rfl
end upsertField

section enterComplete
variable (s : State)
@[simp] theorem enterComplete_key : (enterComplete s).key = s.key := rfl
@[simp] theorem enterComplete_acc : (enterComplete s).acc = s.acc := rfl
@[simp] theorem enterComplete_fsm : (enterComplete s).fsm = .complete := rfl
@[simp] theorem enterComplete_n : (enterComplete s).n = s.n := rfl
@[simp] theorem enterComplete_inputs : (enterComplete s).inputs = s.inputs := rfl
@[simp] theorem enterComplete_out : (enterComplete s).out = s.out := rfl
end enterComplete

section emitField
variable (f : Field) (s : State)
@[simp] theorem emitField_key : (emitField f s).key = s.key := rfl
@[simp] theorem emitField_acc : (emitField f s).acc = s.acc := rfl
@[simp] theorem emitField_fsm : (emitField f s).fsm = s.fsm := rfl
@[simp] theorem emitField_n : (emitField f s).n = s.n := rfl
@[simp] theorem emitField_inputs : (emitField f s).inputs = s.inputs := rfl
@[simp] theorem emitField_out : (emitField f s).out = ⟨some f, none, none⟩ := rfl
end emitField

section emitReadingAndClear
variable (f : Field) (s : State)
@[simp] theorem emitReadingAndClear_key : (emitReadingAndClear f s).key = s.key := rfl
@[simp] theorem emitReadingAndClear_acc : (emitReadingAndClear f s).acc = Acc.empty := rfl
@[simp] theorem emitReadingAndClear_fsm : (emitReadingAndClear f s).fsm = .collecting := rfl
@[simp] theorem emitReadingAndClear_n : (emitReadingAndClear f s).n = s.n := rfl
@[simp] theorem emitReadingAndClear_inputs : (emitReadingAndClear f s).inputs = s.inputs := rfl
@[simp] theorem emitReadingAndClear_out :
    (emitReadingAndClear f s).out = ⟨some f, none, readingOf s.acc⟩ := rfl
end emitReadingAndClear

section takeChecksumError
variable (e : ErrorReport) (s : State)
@[simp] theorem takeChecksumError_key : (takeChecksumError e s).key = s.key := rfl
@[simp] theorem takeChecksumError_acc : (takeChecksumError e s).acc = s.acc := rfl
@[simp] theorem takeChecksumError_fsm : (takeChecksumError e s).fsm = s.fsm := rfl
@[simp] theorem takeChecksumError_n : (takeChecksumError e s).n = s.n := rfl
@[simp] theorem takeChecksumError_inputs : (takeChecksumError e s).inputs = s.inputs := rfl
@[simp] theorem takeChecksumError_out : (takeChecksumError e s).out = ⟨none, some e, none⟩ := rfl
end takeChecksumError

section hostIdle
variable (s : State)
@[simp] theorem hostIdle_key : (hostIdle s).key = s.key := rfl
@[simp] theorem hostIdle_acc : (hostIdle s).acc = s.acc := rfl
@[simp] theorem hostIdle_fsm : (hostIdle s).fsm = s.fsm := rfl
@[simp] theorem hostIdle_n : (hostIdle s).n = s.n := rfl
@[simp] theorem hostIdle_inputs : (hostIdle s).inputs = s.inputs := rfl
@[simp] theorem hostIdle_out : (hostIdle s).out = Outputs.quiet := rfl
end hostIdle

section hostReset
variable (s : State)
@[simp] theorem hostReset_key : (hostReset s).key = none := rfl
@[simp] theorem hostReset_acc : (hostReset s).acc = Acc.empty := rfl
@[simp] theorem hostReset_fsm : (hostReset s).fsm = .collecting := rfl
@[simp] theorem hostReset_n : (hostReset s).n = 0 := rfl
@[simp] theorem hostReset_inputs : (hostReset s).inputs = s.inputs := rfl
@[simp] theorem hostReset_out : (hostReset s).out = Outputs.quiet := rfl
end hostReset

section consumePorts
variable (s : State)
@[simp] theorem consumePorts_key : (consumePorts s).key = s.key := rfl
@[simp] theorem consumePorts_acc : (consumePorts s).acc = s.acc := rfl
@[simp] theorem consumePorts_fsm : (consumePorts s).fsm = s.fsm := rfl
@[simp] theorem consumePorts_n : (consumePorts s).n = s.n := rfl
@[simp] theorem consumePorts_inputs : (consumePorts s).inputs = s.inputs.tail := rfl
@[simp] theorem consumePorts_out : (consumePorts s).out = s.out := rfl
end consumePorts

end Sys2Proof.Machine
end

