-- ==== Sys2Proof/Laws/Acc.lean ====
section
/-! SUPPORT. Laws/Acc: reading after writing, the canonical form, the completion predicate and the Reading of ACC. -/

namespace Sys2Proof.Machine

theorem lookupEntry_insertEntry (op op' : OpCode) (v : Value) (l : List (OpCode × Value)) :
    lookupEntry op' (insertEntry op v l) = if op' = op then some v else lookupEntry op' l := by
  induction l with
  | nil => simp only [insertEntry, lookupEntry, eq_comm]
  | cons hd tl ih =>
    obtain ⟨o, w⟩ := hd
    by_cases h : op' = op
    · subst h
      by_cases ho : o = op'
      · simp [insertEntry, lookupEntry, ho]
      · by_cases hlt : op'.toNat < o.toNat <;> simp [insertEntry, lookupEntry, ho, hlt, ih]
    · have h' : op ≠ op' := Ne.symm h
      by_cases ho : o = op
      · simp [insertEntry, lookupEntry, ho, h, h']
      · by_cases hlt : op.toNat < o.toNat <;> simp [insertEntry, lookupEntry, ho, hlt, h, h', ih]

/-- Reading after writing (10_state.md R25). -/
theorem Acc.get_upsert (a : Acc) (op op' : OpCode) (v : Value) :
    (a.upsert op v).get op' = if op' = op then some v else a.get op' :=
  lookupEntry_insertEntry op op' v a.entries

@[simp] theorem Acc.get_upsert_self (a : Acc) (op : OpCode) (v : Value) : (a.upsert op v).get op = some v := by
  simp [Acc.get_upsert]

theorem Acc.get_upsert_ne (a : Acc) {op op' : OpCode} (v : Value) (h : op' ≠ op) :
    (a.upsert op v).get op' = a.get op' := by
  simp [Acc.get_upsert, h]

@[simp] theorem Acc.get_empty (op : OpCode) : Acc.empty.get op = none := rfl

/-- The register file is cleared whatever it held (41_accumulator.md R137). -/
theorem reset_acc : State.reset.acc = Acc.empty := rfl

theorem insertEntry_insertEntry (op : OpCode) (v w : Value) (l : List (OpCode × Value)) :
    insertEntry op w (insertEntry op v l) = insertEntry op w l := by
  induction l with
  | nil => simp [insertEntry]
  | cons hd tl ih =>
    obtain ⟨o, x⟩ := hd
    by_cases ho : o = op
    · simp [insertEntry, ho]
    · by_cases hlt : op.toNat < o.toNat
      · simp [insertEntry, ho, hlt]
      · simp [insertEntry, ho, hlt, ih]

/-- Last write wins (41_accumulator.md R142). -/
theorem Acc.upsert_upsert (a : Acc) (op : OpCode) (v w : Value) :
    (a.upsert op v).upsert op w = a.upsert op w := by
  simp [Acc.upsert, insertEntry_insertEntry]

/-! ### The canonical form -/

theorem mem_insertEntry {op : OpCode} {v : Value} {l : List (OpCode × Value)} {x : OpCode × Value}
    (h : x ∈ insertEntry op v l) : x = (op, v) ∨ x ∈ l := by
  induction l with
  | nil => simpa [insertEntry] using h
  | cons hd tl ih =>
    obtain ⟨o, w⟩ := hd
    simp only [insertEntry] at h
    split at h
    · rcases List.mem_cons.mp h with h | h
      · exact .inl h
      · exact .inr (List.mem_cons_of_mem _ h)
    · split at h
      · rcases List.mem_cons.mp h with h | h
        · exact .inl h
        · exact .inr h
      · rcases List.mem_cons.mp h with h | h
        · exact .inr (h ▸ List.mem_cons_self)
        · exact (ih h).imp_right (List.mem_cons_of_mem _)

theorem pairwise_insertEntry (op : OpCode) (v : Value) {l : List (OpCode × Value)}
    (h : l.Pairwise fun x y => x.1.toNat < y.1.toNat) :
    (insertEntry op v l).Pairwise fun x y => x.1.toNat < y.1.toNat := by
  induction l with
  | nil => simp [insertEntry]
  | cons hd tl ih =>
    obtain ⟨o, w⟩ := hd
    obtain ⟨hhd, htl⟩ := List.pairwise_cons.mp h
    simp only [insertEntry]
    split
    · next ho => subst ho; exact List.pairwise_cons.mpr ⟨hhd, htl⟩
    · split
      · next hlt =>
        refine List.pairwise_cons.mpr ⟨fun y hy => ?_, h⟩
        rcases List.mem_cons.mp hy with rfl | hy
        · exact hlt
        · exact Nat.lt_trans hlt (hhd y hy)
      · next ho hlt =>
        refine List.pairwise_cons.mpr ⟨fun y hy => ?_, ih htl⟩
        rcases mem_insertEntry hy with rfl | hy
        · have : o.toNat ≠ op.toNat := fun e => ho (BitVec.eq_of_toNat_eq e)
          show o.toNat < op.toNat
          omega
        · exact hhd y hy

/-- Every write keeps the canonical form. -/
theorem Acc.wf_upsert (a : Acc) (op : OpCode) (v : Value) (h : a.wf = true) : (a.upsert op v).wf = true := by
  simp only [Acc.wf, decide_eq_true_eq] at h ⊢
  exact pairwise_insertEntry op v h

@[simp] theorem Acc.wf_empty : Acc.empty.wf = true := rfl

/-! ### The completion predicate and the Reading -/

theorem complete_iff (a : Acc) :
    complete a = true ↔ ∃ c t, a.get Config.opCo2 = some c ∧ a.get Config.opTemp = some t := by
  simp [complete, Acc.validBit, Option.isSome_iff_exists]

theorem complete_eq_false_iff (a : Acc) :
    complete a = false ↔ a.get Config.opCo2 = none ∨ a.get Config.opTemp = none := by
  unfold complete Acc.validBit
  cases a.get Config.opCo2 <;> cases a.get Config.opTemp <;> simp

@[simp] theorem complete_empty : complete Acc.empty = false := rfl

/-- The Reading of a register file with both mandatory entries (41_accumulator.md R136). -/
theorem readingOf_eq_some {a : Acc} {c t : Value} (hc : a.get Config.opCo2 = some c)
    (ht : a.get Config.opTemp = some t) : readingOf a = some ⟨c, t, a.get Config.opHum⟩ := by
  simp [readingOf, hc, ht]

/-- There is a Reading exactly where the completion predicate holds. -/
theorem isSome_readingOf (a : Acc) : (readingOf a).isSome = complete a := by
  unfold readingOf complete Acc.validBit
  cases a.get Config.opCo2 <;> cases a.get Config.opTemp <;> rfl

end Sys2Proof.Machine
end

