-- ==== Sys2Proof/Laws/Decode.lean ====
section
/-! SUPPORT. Laws/Decode: frames as functions on byte indices, the phases of the transform and their inverses byte by
byte, and what the decoder answers. -/

namespace Sys2Proof

/-- A property of the byte indices is its eight instances. -/
theorem forall_byteIndex {P : Fin 8 → Prop} (h0 : P 0) (h1 : P 1) (h2 : P 2) (h3 : P 3) (h4 : P 4) (h5 : P 5)
    (h6 : P 6) (h7 : P 7) : ∀ i, P i := by
  intro i
  match i with
  | 0 => exact h0
  | 1 => exact h1
  | 2 => exact h2
  | 3 => exact h3
  | 4 => exact h4
  | 5 => exact h5
  | 6 => exact h6
  | 7 => exact h7

namespace Frame

@[simp] theorem get_ofFn (g : Fin 8 → Byte) (i : Fin 8) : (ofFn g).get i = g i := by
  revert i
  apply forall_byteIndex <;> rfl

/-- Two frames with equal bytes are equal. -/
theorem ext_get {f g : Frame} (h : ∀ i, f.get i = g.get i) : f = g := by
  cases f; cases g
  simp only [mk.injEq]
  exact ⟨h 0, h 1, h 2, h 3, h 4, h 5, h 6, h 7⟩

@[simp] theorem ofFn_get (f : Frame) : ofFn f.get = f := ext_get fun i => get_ofFn _ i

end Frame

/-! ### Frames as 64-bit words (00_scope.md R7) -/

/-- Bit b of byte i of a frame in its word: byte 0 is most significant. -/
theorem getLsbD_toWord (f : Frame) (i : Fin 8) (b : Nat) (hb : b < 8) :
    f.toWord.getLsbD (56 - 8 * i.val + b) = (f.get i).getLsbD b := by
  revert i
  apply forall_byteIndex <;>
  · simp only [Frame.toWord, Frame.get, BitVec.getLsbD_append]
    simp
    repeat (first | rw [if_pos (by omega)] | rw [if_neg (by omega)])
    try congr 1
    try omega

/-- Two words with equal bits in every byte are equal. -/
theorem word64_ext {w w' : Word64} (h : ∀ (i : Fin 8) (b : Nat), b < 8 →
    w.getLsbD (56 - 8 * i.val + b) = w'.getLsbD (56 - 8 * i.val + b)) : w = w' := by
  apply BitVec.eq_of_getLsbD_eq
  intro j hj
  have := h ⟨7 - j / 8, by omega⟩ (j % 8) (by omega)
  rwa [show 56 - 8 * (7 - j / 8) + j % 8 = j by omega] at this

/-- Byte i of the frame on a port. -/
theorem get_ofWord (w : Word64) (i : Fin 8) : (Frame.ofWord w).get i = w.extractLsb' (56 - 8 * i.val) 8 := by
  revert i
  apply forall_byteIndex <;> rfl

/-! ### Step 1 -/

/-- The shuffle table is its own inverse (40_frame_decoder.md R102). -/
@[simp] theorem shuffle_shuffle (i : Fin 8) : shuffle (shuffle i) = i := by
  revert i
  decide

/-- The scatter writes every position, so it is the gather, whatever the buffer held (R102). -/
theorem scatterOnto_eq_gather (p f : Frame) : scatterOnto p f = Frame.ofFn fun j => f.get (shuffle j) := rfl

theorem phase1_eq_gather (f : Frame) : phase1 f = Frame.ofFn fun j => f.get (shuffle j) := rfl

@[simp] theorem get_phase1 (f : Frame) (j : Fin 8) : (phase1 f).get j = f.get (shuffle j) := by
  rw [phase1_eq_gather, Frame.get_ofFn]

/-! ### Steps 2, 3 and 5 -/

@[simp] theorem get_phase2 (k p : Frame) (i : Fin 8) : (phase2 k p).get i = p.get i ^^^ k.get i :=
  Frame.get_ofFn _ i

@[simp] theorem get_phase3 (p : Frame) (i : Fin 8) : (phase3 p).get i = mixByte (p.get i) (p.get (i - 1)) :=
  Frame.get_ofFn _ i

@[simp] theorem get_subCtmp (p : Frame) (i : Fin 8) : (subCtmp p).get i = p.get i - ctmp.get i :=
  Frame.get_ofFn _ i

/-! ### The inverse steps, 30_encoding.md R85 -/

@[simp] theorem get_addCtmp (d : Frame) (i : Fin 8) : (addCtmp d).get i = d.get i + ctmp.get i :=
  Frame.get_ofFn _ i

@[simp] theorem get_unphase3 (p : Frame) (i : Fin 8) :
    (unphase3 p).get i = unmixByte (p.get i) (p.get (i + 1)) := Frame.get_ofFn _ i

@[simp] theorem get_unphase2 (k p : Frame) (i : Fin 8) : (unphase2 k p).get i = p.get i ^^^ k.get i :=
  Frame.get_ofFn _ i

@[simp] theorem get_unphase1 (p : Frame) (i : Fin 8) : (unphase1 p).get i = p.get (shuffle i) :=
  Frame.get_ofFn _ i

/-- Bit by bit, `mixByte` undoes `unmixByte`. -/
theorem mixByte_unmixByte (a b c : Byte) : mixByte (unmixByte b c) (unmixByte a b) = b := by
  ext i hi
  simp only [mixByte, unmixByte, BitVec.getElem_or, BitVec.getElem_ushiftRight, BitVec.getElem_shiftLeft,
    BitVec.getLsbD_or, BitVec.getLsbD_shiftLeft, BitVec.getLsbD_ushiftRight]
  rcases i with _ | _ | _ | _ | _ | _ | _ | _ | i <;> simp
  omega

/-- Bit by bit, `unmixByte` undoes `mixByte`. -/
theorem unmixByte_mixByte (a b c : Byte) : unmixByte (mixByte b a) (mixByte c b) = b := by
  ext i hi
  simp only [mixByte, unmixByte, BitVec.getElem_or, BitVec.getElem_ushiftRight, BitVec.getElem_shiftLeft,
    BitVec.getLsbD_or, BitVec.getLsbD_shiftLeft, BitVec.getLsbD_ushiftRight]
  rcases i with _ | _ | _ | _ | _ | _ | _ | _ | i <;> simp
  omega

/-! ### The byte operations as the spec's formulas on integers -/

/-- `((cur >> 3) | (prev << 5)) & 0xFF` (40_frame_decoder.md R104). -/
theorem toNat_mixByte (a b : Byte) : (mixByte a b).toNat = (a.toNat >>> 3 ||| b.toNat <<< 5) % 256 := by
  rw [show 256 = 2 ^ 8 from rfl, Nat.or_mod_two_pow]
  have := a.isLt
  simp only [mixByte, BitVec.toNat_or, BitVec.toNat_ushiftRight, BitVec.toNat_shiftLeft]
  rw [Nat.mod_eq_of_lt (a := a.toNat >>> 3) (by rw [Nat.shiftRight_eq_div_pow]; omega)]

/-- The wrapping sum of three bytes (30_encoding.md R76). -/
theorem toNat_sum3 (a b c : Byte) : (sum3 a b c).toNat = (a.toNat + b.toNat + c.toNat) % 256 := by
  simp [sum3, BitVec.toNat_add]

/-! ### The decoder -/

theorem candidate_of_valid (k : Key) {f : Frame} (h : valid f = true) : candidate k f = f := by
  simp [candidate, h]

theorem candidate_of_invalid (k : Key) {f : Frame} (h : valid f = false) : candidate k f = xform k f := by
  simp [candidate, h]

/-- All the decoder can answer, at both levels (40_frame_decoder.md R100, 30_encoding.md R82). -/
theorem decode_cases (k : Key) (f : Frame) :
    (valid (candidate k f) = true ∧ decode k f = .field (fieldOf (candidate k f)) ∧
      decodeInstr k f = .instr (selectInstr (candidate k f).b0 (valueOf (candidate k f)) (candidate k f).pad)) ∨
    (valid f = false ∧ valid (xform k f) = false ∧ decode k f = .checksumError ⟨f, xform k f⟩ ∧
      decodeInstr k f = .checksumError ⟨f, xform k f⟩) := by
  by_cases hc : valid (candidate k f) = true
  · exact .inl ⟨hc, by simp [decode, hc], by simp [decodeInstr, decodeCandidate, hc]⟩
  · have hf : valid f = false := by
      by_contra h
      exact hc (by rw [candidate_of_valid k (by simpa using h)]; simpa using h)
    rw [candidate_of_invalid k hf] at hc
    have hx : valid (xform k f) = false := by simpa using hc
    have hcand := candidate_of_invalid k hf
    exact .inr ⟨hf, hx, by simp [decode, hcand, hx], by simp [decodeInstr, decodeCandidate, hcand, hx]⟩

/-- A plaintext frame is valid (30_encoding.md R76, R79). -/
@[simp] theorem valid_plainFrame (op : OpCode) (v : Value) (pad : Pad) : valid (plainFrame op v pad) = true := by
  simp [valid, plainFrame]

/-- The value as a number: byte 1 high, byte 2 low (20_memory.md R51). -/
theorem toNat_valueOf (d : Frame) : (valueOf d).toNat = d.b1.toNat <<< 8 ||| d.b2.toNat :=
  BitVec.toNat_append d.b1 d.b2

theorem toNat_valueOf_add (d : Frame) : (valueOf d).toNat = 256 * d.b1.toNat + d.b2.toNat := by
  rw [toNat_valueOf, ← Nat.shiftLeft_add_eq_or_of_lt d.b2.isLt, Nat.shiftLeft_eq]
  omega

/-- The value bytes of a plaintext frame hold the value, big-endian (20_memory.md R51). -/
@[simp] theorem valueOf_plainFrame (op : OpCode) (v : Value) (pad : Pad) : valueOf (plainFrame op v pad) = v := by
  apply BitVec.eq_of_toNat_eq
  rw [toNat_valueOf_add]
  simp only [plainFrame, BitVec.extractLsb'_toNat, Nat.shiftRight_eq_div_pow]
  omega

@[simp] theorem pad_plainFrame (op : OpCode) (v : Value) (pad : Pad) : (plainFrame op v pad).pad = pad := rfl

@[simp] theorem b0_plainFrame (op : OpCode) (v : Value) (pad : Pad) : (plainFrame op v pad).b0 = op := rfl

end Sys2Proof
end

