-- ==== Sys2Proof/Laws/PerInstr.lean ====
section
/-! SUPPORT. Laws/PerInstr: statements about every instruction as syntax, one lemma a constructor. -/

/-- The plaintext frame of an instruction is a legal candidate, and its terminator is 0x0D (30_encoding.md R71, R82). -/
def Sys2Proof.Laws.EncodeIsLegal.Statement (i : Sys2Proof.Instr) : Prop :=
  Sys2Proof.valid (Sys2Proof.encode i) = true ∧ (Sys2Proof.encode i).b4 = 0x0D

theorem Sys2Proof.Laws.EncodeIsLegal.co2 (v : Sys2Proof.Value) (pad : Sys2Proof.Pad) :
    Sys2Proof.Laws.EncodeIsLegal.Statement (.co2 v pad) := ⟨Sys2Proof.valid_plainFrame _ v pad, rfl⟩

theorem Sys2Proof.Laws.EncodeIsLegal.temp (v : Sys2Proof.Value) (pad : Sys2Proof.Pad) :
    Sys2Proof.Laws.EncodeIsLegal.Statement (.temp v pad) := ⟨Sys2Proof.valid_plainFrame _ v pad, rfl⟩

theorem Sys2Proof.Laws.EncodeIsLegal.hum (v : Sys2Proof.Value) (pad : Sys2Proof.Pad) :
    Sys2Proof.Laws.EncodeIsLegal.Statement (.hum v pad) := ⟨Sys2Proof.valid_plainFrame _ v pad, rfl⟩

theorem Sys2Proof.Laws.EncodeIsLegal.unk (op : Sys2Proof.OpCode) (v : Sys2Proof.Value) (pad : Sys2Proof.Pad) :
    Sys2Proof.Laws.EncodeIsLegal.Statement (.unk op v pad) := ⟨Sys2Proof.valid_plainFrame op v pad, rfl⟩
end

