-- ==== Sys2Proof/Laws/Step.lean ====
section
/-! SUPPORT. Laws/Step: what each shared operation, each host operation and a step can do, said once. -/

namespace Sys2Proof.Machine

/-- Everything the common Field step can do (41_accumulator.md R130): emit a Reading and clear, or store and go on. -/
theorem fieldStep_cases (f : Field) (s : State) :
    (∃ r, readingOf (s.acc.upsert f.op f.value) = some r ∧ complete (s.acc.upsert f.op f.value) = true ∧
      fieldStep f s = { s with acc := Acc.empty, fsm := .collecting, out := ⟨some f, none, some r⟩ }) ∨
    (complete (s.acc.upsert f.op f.value) = false ∧
      fieldStep f s = { s with acc := s.acc.upsert f.op f.value, out := ⟨some f, none, none⟩ }) := by
  by_cases h : complete (s.acc.upsert f.op f.value) = true
  · obtain ⟨r, hr⟩ := Option.isSome_iff_exists.mp ((isSome_readingOf _).trans h)
    refine .inl ⟨r, hr, h, ?_⟩
    simp [fieldStep, h, emitReadingAndClear, enterComplete, upsertField, hr]
  · refine .inr ⟨by simpa using h, ?_⟩
    simp [fieldStep, h, emitField, upsertField]

/-- Every instruction is the common Field step on its own Field (41_accumulator.md R130 to R134). -/
theorem exec_eq (i : Instr) (s : State) : exec i s = .next (fieldStep (fieldOfInstr i) s) := by
  cases i <;> rfl

/-- Decoding yields the instruction whose Field the Field decoder yields. -/
theorem fieldOfInstr_selectInstr (op : OpCode) (v : Value) (pad : Pad) :
    fieldOfInstr (selectInstr op v pad) = ⟨op, v⟩ := by
  unfold selectInstr
  split
  · next h => simp only [beq_iff_eq] at h; subst h; rfl
  · split
    · next h => simp only [beq_iff_eq] at h; subst h; rfl
    · split
      · next h => simp only [beq_iff_eq] at h; subst h; rfl
      · rfl

/-- LOADKEY without a key loaded (45_host_interface.md R163). -/
theorem hostLoadKey_of_none {s : State} (k : Key) (h : s.key = none) :
    hostLoadKey k s = .next { s with key := some k, out := Outputs.quiet } := by
  simp [hostLoadKey, h]

/-- LOADKEY with a key loaded (45_host_interface.md R163). -/
theorem hostLoadKey_of_some {s : State} (k : Key) {k' : Key} (h : s.key = some k') :
    hostLoadKey k s = .refused .secondLoadKey := by
  simp [hostLoadKey, h]

/-- PUSH without a key loaded (45_host_interface.md R164). -/
theorem hostPush_of_none {s : State} (f : Frame) (h : s.key = none) : hostPush f s = .refused .pushBeforeKey := by
  simp [hostPush, h]

/-- Everything PUSH can do with a key loaded: the Field step, or a ChecksumError (45_host_interface.md R164). -/
theorem hostPush_keyed {s : State} {k : Key} (hk : s.key = some k) (f : Frame) :
    (∃ fd, decode k f = .field fd ∧ hostPush f s = .next (fieldStep fd (nextIndex s))) ∨
    (∃ e, decode k f = .checksumError e ∧ hostPush f s = .next (takeChecksumError e (nextIndex s))) := by
  rcases decode_cases k f with ⟨_, hd, hi⟩ | ⟨_, _, hd, hi⟩
  · refine .inl ⟨_, hd, ?_⟩
    simp only [hostPush, hk, hi, exec_eq, fieldOfInstr_selectInstr]
    rfl
  · exact .inr ⟨_, hd, by simp [hostPush, hk, hi]⟩

/-- Everything a step that answers a next state did (45_host_interface.md R162 to R165). -/
theorem step_next_cases {s t : State} (h : step s = .next t) :
    ((portsNow s).op = .reset ∧ t = hostReset (consumePorts s)) ∨
    (∃ k, (portsNow s).op = .loadKey k ∧ s.key = none ∧
      t = { consumePorts s with key := some k, out := Outputs.quiet }) ∨
    ((portsNow s).op = .idle ∧ t = hostIdle (consumePorts s)) ∨
    (∃ f k fd, (portsNow s).op = .push f ∧ s.key = some k ∧ decode k f = .field fd ∧
      t = fieldStep fd (nextIndex (consumePorts s))) ∨
    (∃ f k e, (portsNow s).op = .push f ∧ s.key = some k ∧ decode k f = .checksumError e ∧
      t = takeChecksumError e (nextIndex (consumePorts s))) := by
  unfold step runCycle at h
  split at h
  · next hop => exact .inl ⟨hop, by simpa using h.symm⟩
  · next k hop =>
    unfold hostLoadKey at h
    split at h
    · next hk => exact .inr (.inl ⟨k, hop, hk, by simpa using h.symm⟩)
    · simp at h
  · next f hop =>
    cases hk : s.key with
    | none => simp [hostPush, hk] at h
    | some k =>
      rcases hostPush_keyed (s := consumePorts s) (k := k) hk f with ⟨fd, hd, hp⟩ | ⟨e, hd, hp⟩
      · refine .inr (.inr (.inr (.inl ⟨f, k, fd, hop, rfl, hd, ?_⟩)))
        simpa [hp] using h.symm
      · refine .inr (.inr (.inr (.inr ⟨f, k, e, hop, rfl, hd, ?_⟩)))
        simpa [hp] using h.symm
  · simp at h
  · next hop => exact .inr (.inr (.inl ⟨hop, by simpa using h.symm⟩))

end Sys2Proof.Machine
end

