-- ==== Sys2Proof/Tests/Slice0.lean ====
section
/-! SUPPORT. Tests/Slice0: small tests whose expected results come from the spec (mostly 95_test_vectors.md), and for every
statement with hypotheses a witness that meets them all. -/

open Sys2Proof Sys2Proof.Machine

namespace Sys2Proof.Tests

/-- The source's example key K (95_test_vectors.md). -/
def keyK : Key := ⟨0xC4, 0xC6, 0xC0, 0x92, 0x40, 0x23, 0xDC, 0x96⟩

/-- The all-zero frame, also the key Z. -/
def zeros : Frame := ⟨0, 0, 0, 0, 0, 0, 0, 0⟩

/-- A plaintext CO2 400 frame (V10). -/
def frameCo2 : Frame := ⟨0x50, 0x01, 0x90, 0xE1, 0x0D, 0, 0, 0⟩

/-- A keyed state with the given ACC entries and pushed frames. -/
def keyed (acc : List (OpCode × Value)) (fs : List Frame) : State :=
  { State.reset with key := some keyK, acc := ⟨acc⟩, inputs := fs.map pushPorts }

/-! ### Well-formedness: the check refuses each excluded op-code (R82) -/

theorem test_unk_refuses_co2 : (Instr.unk 0x50 1 zeroPad).wellFormed = false := by decide
theorem test_unk_refuses_temp : (Instr.unk 0x42 1 zeroPad).wellFormed = false := by decide
theorem test_unk_refuses_hum : (Instr.unk 0x44 1 zeroPad).wellFormed = false := by decide
theorem test_unk_accepts_others : (Instr.unk 0x6D 1 zeroPad).wellFormed = true := by decide

/-! ### Decoding: words written out from format F (R71) and from V10, V12, V18 -/

/-- op 0x50, value 400 = 0x0190, chk 0xE1, terminator 0x0D, pad 0. -/
theorem test_decode_co2 : decodeTableWord 64 0x500190E10D000000 = some (.co2 400 zeroPad) := by decide
/-- op 0x42, value 5000 = 0x1388, chk 0xDD. -/
theorem test_decode_temp : decodeTableWord 64 0x421388DD0D000000 = some (.temp 5000 zeroPad) := by decide
/-- op 0x44, value 4567 = 0x11D7, chk 0x2C. -/
theorem test_decode_hum : decodeTableWord 64 0x4411D72C0D000000 = some (.hum 4567 zeroPad) := by decide
/-- op 0xFF, value 0xFFFF, chk 0xFD with the carry dropped (V10). -/
theorem test_decode_unk : decodeTableWord 64 0xFFFFFFFD0D000000 = some (.unk 0xFF 0xFFFF zeroPad) := by decide
/-- R82: the table's match bits alone do not satisfy its chk_rule for CO2 (0x50 ≠ 0). -/
theorem test_decode_match_alone_refused : decodeTableWord 64 0x500000000D000000 = none := by decide
/-- V11: the terminator alone wrong. -/
theorem test_decode_wrong_terminator : decodeInstr keyK ⟨0xF5, 0xDC, 0x66, 0x20, 0x81, 0x46, 0xBF, 0x2A⟩ =
    .checksumError ⟨⟨0xF5, 0xDC, 0x66, 0x20, 0x81, 0x46, 0xBF, 0x2A⟩, ⟨0x50, 0x01, 0x90, 0xE1, 0x0C, 0, 0, 0⟩⟩ := by
  decide
/-- V12: a frame valid in both readings is plaintext. -/
theorem test_decode_dual_valid : decodeInstr keyK ⟨0x42, 0xE0, 0x66, 0x88, 0x0D, 0, 0, 0x02⟩ =
    .instr (.temp 0xE066 ⟨0, 0, 2⟩) := by decide
/-- V8 row l: the phases on distinct bytes. -/
theorem test_phase1_distinct : phase1 ⟨0x01, 0x23, 0x45, 0x67, 0x89, 0xAB, 0xCD, 0xEF⟩ =
    ⟨0x45, 0x89, 0x01, 0xEF, 0x23, 0xCD, 0xAB, 0x67⟩ := by decide
/-- V8 row l, the whole transform. -/
theorem test_xform_distinct : xform keyK ⟨0x01, 0x23, 0x45, 0x67, 0x89, 0xAB, 0xCD, 0xEF⟩ =
    ⟨0xAC, 0xE2, 0xA2, 0x59, 0xA5, 0xEA, 0x3B, 0xA8⟩ := by decide
/-- V14 row 1: the low 3 bits of byte 7 wrap into byte 0. -/
theorem test_phase3_wraps : phase3 ⟨0, 0, 0, 0, 0, 0, 0, 7⟩ = ⟨0xE0, 0, 0, 0, 0, 0, 0, 0⟩ := by decide
/-- V9: ENC of TEMP 4373. -/
theorem test_enc_temp : (AsmLine.wire (.temp 4373 zeroPad)).assemble keyK =
    some ⟨0x99, 0xE4, 0xF6, 0x20, 0x05, 0x46, 0xBF, 0x62⟩ := by decide
/-- V9, last row: a `.wire` line whose frame is plaintext-valid is an error. -/
theorem test_wire_error : (AsmLine.wire (.temp 0xD21C ⟨0xF1, 0xE8, 0x41⟩)).assemble keyK = none := by decide
/-- V19: one wrong key bit. -/
theorem test_wrong_key : xform ⟨0xCC, 0xC6, 0xC0, 0x92, 0x40, 0x23, 0xDC, 0x96⟩
    ⟨0xF5, 0xE4, 0x66, 0x20, 0x81, 0x46, 0xBF, 0x2A⟩ = ⟨0x51, 0x01, 0x90, 0xE1, 0x0D, 0, 0, 0⟩ := by decide
/-- Nine bytes are no frame (R53). -/
theorem test_nine_bytes : decodeBytes keyK [0x50, 1, 0x90, 0xE1, 0x0D, 0, 0, 0, 0] = .error .wrongLength := rfl

/-! ### Single steps, V16 and V18 -/

/-- V16: {0x42: 5000, 0x44: 4567, 0x6D: 2652} and CO2 400 emits and clears the UNK entry too. -/
theorem test_co2_completes : exec (.co2 400 zeroPad) (keyed [(0x42, 5000), (0x44, 4567), (0x6D, 2652)] []) =
    .next { keyed [] [] with out := ⟨some ⟨0x50, 400⟩, none, some ⟨400, 5000, some 4567⟩⟩ } := rfl
/-- V16: a second CO2 overwrites. -/
theorem test_co2_overwrites : exec (.co2 200 zeroPad) (keyed [(0x50, 100)] []) =
    .next { keyed [(0x50, 200)] [] with out := ⟨some ⟨0x50, 200⟩, none, none⟩ } := rfl
/-- V16: zero is a value, not absence. -/
theorem test_temp_zero : exec (.temp 0 zeroPad) (keyed [(0x50, 0)] []) =
    .next { keyed [] [] with out := ⟨some ⟨0x42, 0⟩, none, some ⟨0, 0, none⟩⟩ } := rfl
/-- V16: HUM does not complete; the entry lands in rising order. -/
theorem test_hum_stores : exec (.hum 4567 zeroPad) (keyed [(0x50, 400)] []) =
    .next { keyed [(0x44, 4567), (0x50, 400)] [] with out := ⟨some ⟨0x44, 4567⟩, none, none⟩ } := rfl
/-- V16, last row: not reachable from reset; the test is applied after every upsert. -/
theorem test_unk_completes : exec (.unk 0x6D 1 zeroPad) (keyed [(0x42, 5000), (0x50, 400)] []) =
    .next { keyed [] [] with out := ⟨some ⟨0x6D, 1⟩, none, some ⟨400, 5000, none⟩⟩ } := rfl
/-- V18: PUSH of the wire frame of TEMP 5000 completes a Reading. -/
theorem test_push_wire_temp : step (keyed [(0x50, 400)] [⟨0x35, 0xE4, 0xF6, 0x20, 0x10, 0x46, 0xBF, 0x0A⟩]) =
    .next { keyed [] [] with n := 1, out := ⟨some ⟨0x42, 0x1388⟩, none, some ⟨0x0190, 0x1388, none⟩⟩ } := by rfl
/-- V18: PUSH of the all-zero frame is a ChecksumError and changes nothing. -/
theorem test_push_error : step (keyed [(0x50, 400)] [zeros]) =
    .next { keyed [(0x50, 400)] [] with
      n := 1, out := ⟨none, some ⟨zeros, ⟨0x54, 0x51, 0x82, 0x3C, 0x41, 0x71, 0xE8, 0x3C⟩⟩, none⟩ } := by rfl
/-- V18, last row: RESET with PUSH in the same cycle. -/
theorem test_reset_wins : step { keyed [(0x50, 400)] [] with inputs := [⟨true, false, 0, true, frameCo2.toWord⟩] } =
    .next State.reset := rfl
/-- V18: PUSH before LOADKEY. -/
theorem test_push_before_key : step { State.reset with inputs := [pushPorts frameCo2] } = .refused .pushBeforeKey := rfl
/-- V18: a second LOADKEY. -/
theorem test_second_loadkey : step { keyed [] [] with inputs := [loadKeyPorts keyK] } = .refused .secondLoadKey := rfl
/-- R165: with no request waiting the block is idle. -/
theorem test_idle_when_no_request : step State.reset = .next State.reset := rfl
/-- log 2: the word placed by `withFetchWord` is the very next instruction. -/
theorem test_fetch_word : step (State.reset.withFetchWord 64 0x500190E10D000000) =
    .next { State.reset with
      key := some keyK, n := 1, acc := ⟨[(0x50, 400)]⟩, out := ⟨some ⟨0x50, 400⟩, none, none⟩ } := by rfl
/-- V17: 4370 is −1/40 degrees. -/
theorem test_temperature_4370 : temperatureC 4370 = -1 / 40 := by
  rw [temperatureC, show BitVec.toNat (4370 : Value) = 4370 from rfl]
  norm_num
/-- V17: 10000 is 100 percent. -/
theorem test_humidity_10000 : humidityPct 10000 = 100 := by
  rw [humidityPct, show BitVec.toNat (10000 : Value) = 10000 from rfl]
  norm_num

/-! ### Witnesses: concrete values that meet the hypotheses of each statement, clause by clause -/

/-- The invariant in a state in the middle of a cycle. -/
theorem inv_keyed_co2 : Inv (keyed [(0x50, 400)] []) :=
  ⟨rfl, rfl, rfl, by simp [keyed], fun h => absurd rfl h, .inl rfl, by simp [keyed, State.reset, Outputs.quiet]⟩

/-- The invariant in a state just after an emission, with requests waiting. -/
theorem inv_after_emission (fs : List Frame) :
    Inv { keyed [] fs with out := ⟨some ⟨0x50, 400⟩, none, some ⟨400, 5000, none⟩⟩ } :=
  ⟨rfl, rfl, rfl, by simp [keyed], fun _ => rfl, .inr rfl, by rintro _ ⟨⟩; exact .inl rfl⟩

theorem witness_PassThroughTestComesFirst : valid frameCo2 = true ∧ valid zeros = false := by decide
theorem witness_StepFiveSubtractsByteWise : ctmp.get 7 = ctmp.get 7 ∧ zeros.get 0 = 0 := by decide
theorem witness_FieldIsOpCodeAndBigEndianValue :
    valid (candidate keyK ⟨0x69, 0xE4, 0x66, 0x20, 0xF4, 0x46, 0xBF, 0xB2⟩) = true ∧
    (frameCo2.b0 = (Frame.mk 0x50 0x01 0x90 0 0 1 2 3).b0 ∧ frameCo2.b1 = (Frame.mk 0x50 0x01 0x90 0 0 1 2 3).b1 ∧
      frameCo2.b2 = (Frame.mk 0x50 0x01 0x90 0 0 1 2 3).b2) := by decide
theorem witness_ChecksumErrorCarriesRawFrameAndCandidate :
    (keyed [] []).key = some keyK ∧ valid (candidate keyK zeros) = false := by decide
theorem witness_TransformFormulasHaveTheDerivedProperties : zeros.get 7 = frameCo2.get 7 := by decide
theorem witness_DualValidFrameIsReadAsPlaintext : valid ⟨0x44, 0xE4, 0x60, 0x88, 0x0D, 0, 0, 0x02⟩ = true ∧
    valid (xform keyK ⟨0x44, 0xE4, 0x60, 0x88, 0x0D, 0, 0, 0x02⟩) = true := by decide
theorem witness_InstructionDecoderAgreesWithFieldDecoder : decodeInstr keyK frameCo2 = .instr (.co2 400 zeroPad) ∧
    decode keyK frameCo2 = .field ⟨0x50, 400⟩ := by decide
theorem witness_DecodeOfEncodeIsTheInstruction : (Instr.unk 0x00 0xFFFF ⟨0xFF, 0, 0xFF⟩).wellFormed = true := by decide
theorem witness_EncodeOfDecodeIsTheCandidate :
    decodeCandidate ⟨0xFF, 0xFF, 0xFF, 0xFD, 0x0D, 0xFF, 0xFF, 0xFF⟩ = some (.unk 0xFF 0xFFFF ⟨0xFF, 0xFF, 0xFF⟩) := by
  decide
theorem witness_WireLinesDecodeToTheirInstruction : (Instr.hum 4567 zeroPad).wellFormed = true ∧
    (AsmLine.wire (.hum 4567 zeroPad)).assemble keyK = some ⟨0xA8, 0xE4, 0x86, 0x20, 0x07, 0x46, 0xBF, 0x82⟩ := by decide
theorem witness_Co2WritesItsEntryAndCompletesWithTemp : (keyed [(0x50, 65535)] []).acc.get 0x42 = none ∧
    (keyed [(0x42, 0)] []).acc.get 0x42 = some 0 ∧ (keyed [(0x42, 0x1388)] []).acc = ⟨[(0x42, 0x1388)]⟩ := by decide
theorem witness_TempWritesItsEntryAndCompletesWithCo2 : (keyed [(0x42, 0)] []).acc.get 0x50 = none ∧
    (keyed [(0x50, 65535)] []).acc.get 0x50 = some 65535 ∧ (keyed [(0x50, 200)] []).acc = ⟨[(0x50, 200)]⟩ := by decide
theorem witness_HumWritesItsEntry_reachable : Inv (keyed [(0x50, 400)] []) ∧
    (keyed [(0x50, 400)] []).acc.get 0x42 = none ∧ (keyed [(0x50, 400)] []).acc = ⟨[(0x50, 400)]⟩ :=
  ⟨inv_keyed_co2, rfl, rfl⟩
theorem witness_HumWritesItsEntry_completing : (keyed [(0x42, 1), (0x50, 2)] []).acc.get 0x50 = some 2 ∧
    (keyed [(0x42, 1), (0x50, 2)] []).acc.get 0x42 = some 1 := by decide
theorem witness_UnkWritesItsEntry : (Instr.unk 0xFF 0 zeroPad).wellFormed = true ∧ (keyed [] []).acc.get 0x50 = none ∧
    (keyed [(0x42, 1), (0x50, 2)] []).acc.get 0x50 = some 2 ∧
    (keyed [(0x42, 1), (0x50, 2)] []).acc.get 0x42 = some 1 ∧ (keyed [] []).acc = Acc.empty := by decide
theorem witness_CompletionNeedsExactlyTheMandatoryPair : (0x44 : OpCode) ≠ 0x50 ∧ (0x44 : OpCode) ≠ 0x42 := by decide
theorem witness_EmissionReportsThenClears :
    complete ((keyed [(0x50, 400)] []).acc.upsert (opOf (.temp 5000 zeroPad)) 5000) = true ∧
    complete ((keyed [(0x50, 400)] []).acc.upsert (opOf (.hum 1 zeroPad)) 1) = false := by decide
theorem witness_ReadingUnitsAreExactRationals : (Reading.mk 0 0 (some 65535)).humRaw = some 65535 ∧
    (Outputs.mk none none (some ⟨0, 0, none⟩)).reading = some ⟨0, 0, none⟩ := by decide
theorem witness_InstructionFrame : ∃ t u, exec (.co2 100 zeroPad) (keyed [] []) = .next t ∧ t.out.reading = none ∧
    exec (.temp 1 zeroPad) t = .next u ∧ u.out.reading ≠ none := ⟨_, _, rfl, rfl, rfl, by decide⟩
theorem witness_LastWriteWinsWithinACycle : ∃ t, exec (.co2 100 zeroPad) (keyed [] []) = .next t ∧ t.out.reading = none ∧
    opOf (.co2 100 zeroPad) = opOf (.co2 200 zeroPad) ∧ (keyed [] []).acc = Acc.empty := ⟨_, rfl, rfl, rfl, rfl⟩
theorem witness_NoReadingWithoutBothMandatoryFields : (keyed [] [frameCo2, zeros]).acc.get 0x42 = none ∧
    (∀ o ∈ runOutputs 2 (keyed [] [frameCo2, zeros]), ∀ v : Value, o.field ≠ some ⟨0x42, v⟩) ∧
    (∃ t, step (keyed [(0x6D, 1)] [frameCo2]) = .next t ∧ (portsNow (keyed [(0x6D, 1)] [frameCo2])).op ≠ .reset ∧
      t.out.reading = none ∧ (keyed [(0x6D, 1)] [frameCo2]).acc.get 0x6D ≠ none) := by
  refine ⟨rfl, ?_, _, rfl, by decide, rfl, by decide⟩
  rw [show runOutputs 2 (keyed [] [frameCo2, zeros]) = [⟨some ⟨0x50, 400⟩, none, none⟩,
    ⟨none, some ⟨zeros, ⟨0x54, 0x51, 0x82, 0x3C, 0x41, 0x71, 0xE8, 0x3C⟩⟩, none⟩] from rfl]
  simp
theorem witness_ReadingsComeFromCo2OrTempSteps : Inv (keyed [(0x50, 400)] []) ∧
    (Instr.temp 1 zeroPad).wellFormed = true ∧
    (let s : State := { keyed [] [frameCo2, ⟨0x42, 0x13, 0x88, 0xDD, 0x0D, 0, 0, 0⟩] with
      out := ⟨some ⟨0x50, 400⟩, none, some ⟨400, 5000, none⟩⟩ }
    Inv s ∧ s.out.reading ≠ none ∧ runReadings 2 s ≠ []) :=
  ⟨inv_keyed_co2, rfl, inv_after_emission _, by decide, by decide⟩
theorem witness_OnlyValidFramesPopulateAcc : (∃ t, step (keyed [] [frameCo2]) = .next t ∧ t.out.field = some ⟨0x50, 400⟩) ∧
    (portsNow (keyed [] [zeros])).op = .push zeros ∧ (keyed [] [zeros]).key = some keyK ∧
    valid (candidate keyK zeros) = false ∧ (portsNow (keyed [] [frameCo2])).op = .push frameCo2 ∧
    valid (candidate keyK frameCo2) = true := ⟨⟨_, rfl, rfl⟩, by decide, by decide, by decide, by decide, by decide⟩
theorem witness_StateMachineFollowsItsTable :
    ((keyed [] [zeros]).fsm = .collecting ∧ (portsNow (keyed [] [zeros])).op = .push zeros ∧
      (keyed [] [zeros]).key = some keyK ∧ decode keyK zeros = .checksumError ⟨zeros, xform keyK zeros⟩) ∧
    ((portsNow (keyed [] [frameCo2])).op = .push frameCo2 ∧ decode keyK frameCo2 = .field ⟨0x50, 400⟩ ∧
      complete ((keyed [] [frameCo2]).acc.upsert 0x50 400) = false) ∧
    ((portsNow (keyed [(0x42, 1)] [frameCo2])).op = .push frameCo2 ∧
      complete ((keyed [(0x42, 1)] [frameCo2]).acc.upsert 0x50 400) = true) := by decide
theorem witness_AccIsWrittenOnlyByFieldsEmissionsAndReset : ∃ t, step (keyed [(0x42, 1)] [frameCo2]) = .next t ∧
    t.out.reading ≠ none := ⟨_, rfl, by decide⟩
theorem witness_StepRunsTheDecodedInstruction : (keyed [] [frameCo2]).key = some keyK ∧
    (portsNow (keyed [] [frameCo2])).op = .push frameCo2 ∧ decodeInstr keyK frameCo2 = .instr (.co2 400 zeroPad) := by
  decide
theorem witness_PushStepIsTheReferenceStep : (keyed [] [zeros]).key = some keyK ∧
    (portsNow (keyed [] [zeros])).op = .push zeros ∧ (keyed [] [zeros]).fsm = .collecting := by decide
theorem witness_RunOnFramesIsTheFoldOfTheStep : (keyed [] [frameCo2, zeros]).key = some keyK ∧
    (keyed [] [frameCo2, zeros]).inputs = [frameCo2, zeros].map pushPorts := by decide
theorem witness_ChecksumErrorChangesNothing : (keyed [(0x50, 400)] [zeros]).key = some keyK ∧
    (portsNow (keyed [(0x50, 400)] [zeros])).op = .push zeros ∧
    decode keyK zeros = .checksumError ⟨zeros, ⟨0x54, 0x51, 0x82, 0x3C, 0x41, 0x71, 0xE8, 0x3C⟩⟩ := by decide
theorem witness_AnyNumberOfChecksumErrorsIsHarmless : (keyed [] [zeros, zeros]).key = some keyK ∧
    (keyed [] [zeros, zeros]).inputs = [zeros, zeros].map pushPorts ++ [] ∧
    ∀ f ∈ [zeros, zeros], (decode keyK f).tag = 1 := by decide
theorem witness_ResetGivesTheResetState :
    (portsNow { keyed [(0x50, 400)] [] with inputs := [resetPorts, pushPorts frameCo2] }).rst = true := by decide
theorem witness_LoadKeyIsWriteOnce :
    (let s : State := { State.reset with inputs := [loadKeyPorts keyK] }
     (portsNow s).op = .loadKey keyK ∧ s.keyValid = false) ∧
    (let s : State := { keyed [] [] with inputs := [loadKeyPorts zeros] }
     (portsNow s).op = .loadKey zeros ∧ s.keyValid = true) ∧
    ({ keyed [] [] with inputs := [resetPorts, loadKeyPorts keyK] } : State).inputs =
      resetPorts :: loadKeyPorts keyK :: [] := by decide
theorem witness_IdleCyclesChangeNothing :
    ({ keyed [] [] with inputs := [idlePorts, idlePorts] } : State).inputs = List.replicate (1 + 1) idlePorts ++ [] := by
  decide
theorem witness_ObeyingHostIsNeverRefused :
    (let s : State := { State.reset with inputs := [loadKeyPorts keyK, pushPorts zeros, idlePorts, pushPorts frameCo2,
        resetPorts, loadKeyPorts zeros] }
     hostObeys s.keyValid (s.inputs.map PortsIn.op) = true) := by decide
theorem witness_KeyIsImmutableButForReset : ∃ t, step (keyed [] [frameCo2]) = .next t ∧
    (keyed [] [frameCo2]).keyValid = true ∧ (portsNow (keyed [] [frameCo2])).op ≠ .reset := ⟨_, rfl, rfl, by decide⟩
theorem witness_StepDependsOnKeyAccAndRequestOnly :
    (let s := keyed [(0x50, 400)] [zeros, frameCo2]
     let t : State := { keyed [(0x50, 400)] [zeros] with n := 7, fsm := .complete }
     s.key = t.key ∧ s.acc = t.acc ∧ (portsNow s).op = (portsNow t).op ∧ ∃ s', step s = .next s') :=
  ⟨rfl, rfl, rfl, _, rfl⟩
theorem witness_UnknownEntriesAreUnobservable :
    SameButUnknown (keyed [(0x50, 400), (0x6D, 1)] [frameCo2]) (keyed [(0x50, 400)] [frameCo2]) ∧
    (∃ s', step (keyed [(0x50, 400), (0x6D, 1)] [frameCo2]) = .next s') ∧
    (Instr.unk 0x6D 1 zeroPad).wellFormed = true ∧ complete (keyed [(0x50, 400)] []).acc = false :=
  ⟨⟨rfl, ⟨rfl, rfl, rfl⟩, rfl, rfl, rfl, rfl⟩, ⟨_, rfl⟩, rfl, rfl⟩
theorem witness_OutputStrobesAreExclusive : ∃ t, step (keyed [(0x42, 1)] [frameCo2]) = .next t ∧
    t.out.rdValid = true := ⟨_, rfl, rfl⟩
theorem witness_EveryStepKeepsTheInvariant :
    Inv { keyed [] [frameCo2] with out := ⟨some ⟨0x50, 400⟩, none, some ⟨400, 5000, none⟩⟩ } ∧
    ∃ t, step { keyed [] [frameCo2] with out := ⟨some ⟨0x50, 400⟩, none, some ⟨400, 5000, none⟩⟩ } = .next t :=
  ⟨inv_after_emission _, _, rfl⟩
theorem witness_RegisterFileFormIsCanonical : (Acc.mk [(0x42, 1), (0x50, 2)]).wf = true ∧ Acc.empty.wf = true ∧
    ∀ op, (Acc.mk [(0x42, 1), (0x50, 2)]).get op = (Acc.mk [(0x42, 1), (0x50, 2)]).get op :=
  ⟨rfl, rfl, fun _ => rfl⟩

end Sys2Proof.Tests
end

/-! The two views of a frame on a 64-bit port (00_scope.md R7, 45_host_interface.md R161): `Frame.toWord` and
`Frame.ofWord` are inverse to one another, and each byte of a frame stands at its place in the word. -/

namespace Sys2Proof

/-- A byte appended below a word moves every slice of the word up by 8. -/
theorem extractLsb'_append_byte {n : Nat} (x : BitVec n) (y : Byte) (start len : Nat) :
    (x ++ y).extractLsb' (start + 8) len = x.extractLsb' start len := by
  rw [BitVec.extractLsb'_append_eq_of_le (Nat.le_add_left 8 start), Nat.add_sub_cancel]

namespace Frame

/-- Each byte is read at the offset that the bytes appended after it give it. -/
@[simp] theorem ofWord_toWord (f : Frame) : ofWord f.toWord = f := by
  simp only [ofWord, toWord, extractLsb'_append_byte, BitVec.extractLsb'_append_eq_right, BitVec.extractLsb'_eq_self]

/-- Adjacent bytes of a word join to one slice, here up to the whole word. -/
@[simp] theorem toWord_ofWord (w : Word64) : (ofWord w).toWord = w := by
  simp (disch := decide) only [ofWord, toWord, BitVec.extractLsb'_append_extractLsb'_eq_extractLsb']
  exact BitVec.extractLsb'_eq_self

/-- Byte 0 is in the most significant bits (decision D3). -/
theorem get_ofWord (w : Word64) (i : Fin 8) : (ofWord w).get i = w.extractLsb' (56 - 8 * i.val) 8 := by
  fin_cases i <;> rfl

theorem extractLsb'_toWord (f : Frame) (i : Fin 8) : f.toWord.extractLsb' (56 - 8 * i.val) 8 = f.get i := by
  rw [← get_ofWord, ofWord_toWord]

end Frame

/-- Settles O23: `ofWord` reads the bytes at their places by definition, so that they are those of `toWord` follows
from the two functions being inverse to one another. -/
theorem portWordsCarryByteZeroFirst : Obligations.PortWordsCarryByteZeroFirst :=
  ⟨Frame.extractLsb'_toWord, Frame.ofWord_toWord, Frame.toWord_ofWord⟩

end Sys2Proof


/-! The state and the step (10_state.md): the canonical form of ACC, what the Field step leaves in each field of the state,
what a step does on each request, and the statements that follow, the invariant of every run among them. -/

namespace Sys2Proof.Machine

/-! ### The canonical form of ACC (10_state.md R23) -/

/-- In a rising list the first entry of an op-code is its only one, so looking up is membership. -/
theorem lookupEntry_eq_some_iff {l : List (OpCode × Value)} (hl : l.Pairwise fun x y => x.1.toNat < y.1.toNat)
    {op : OpCode} {v : Value} : lookupEntry op l = some v ↔ (op, v) ∈ l := by
  induction l with
  | nil => simp [lookupEntry]
  | cons hd tl ih =>
    obtain ⟨o, w⟩ := hd
    obtain ⟨hhd, htl⟩ := List.pairwise_cons.mp hl
    by_cases ho : o = op
    · subst ho
      have hnot : (o, v) ∉ tl := fun hm => Nat.lt_irrefl _ (hhd (o, v) hm)
      simp [lookupEntry, hnot, eq_comm]
    · simp [lookupEntry, ho, Ne.symm ho, ih htl]

/-- A rising list is determined by its members, and these by what the register file answers. -/
theorem Acc.eq_of_get_eq {a b : Acc} (ha : a.wf = true) (hb : b.wf = true) (h : ∀ op, a.get op = b.get op) : a = b := by
  simp only [Acc.wf, decide_eq_true_eq] at ha hb
  have hmem : ∀ x, x ∈ a.entries ↔ x ∈ b.entries := fun (op, v) => by
    rw [← lookupEntry_eq_some_iff ha, ← lookupEntry_eq_some_iff hb]
    exact Eq.congr_left (h op)
  have hirrefl : Std.Irrefl fun x y : OpCode × Value => x.1.toNat < y.1.toNat := ⟨fun _ => Nat.lt_irrefl _⟩
  obtain ⟨l⟩ := a
  obtain ⟨m⟩ := b
  exact congrArg Acc.mk (ha.eq_of_mem_iff hb hmem)

/-- Settles O55: the form determines the list by `Acc.eq_of_get_eq`; the rest are the model's laws of ACC. -/
theorem registerFileFormIsCanonical : Obligations.RegisterFileFormIsCanonical :=
  ⟨fun _ _ => Acc.eq_of_get_eq, Acc.wf_upsert, Acc.get_upsert, Acc.wf_empty⟩

/-! ### Presence of entries and the Reading (41_accumulator.md R135, R136) -/

theorem Acc.get_upsert_ne_none_iff (a : Acc) (op op' : OpCode) (v : Value) :
    (a.upsert op v).get op' ≠ none ↔ op' = op ∨ a.get op' ≠ none := by
  by_cases h : op' = op <;> simp [Acc.get_upsert, h]

/-- An entry that only the upsert can have given is the one it wrote. -/
theorem Acc.field_of_get_upsert_of_absent {a : Acc} {fd : Field} {m : OpCode} {w : Value} (hnone : a.get m = none)
    (h : (a.upsert fd.op fd.value).get m = some w) : fd = ⟨m, w⟩ := by
  rw [Acc.get_upsert, hnone] at h
  split at h
  · next hm => rw [hm, ← Option.some.inj h]
  · nomatch h

theorem readingOf_ne_none_iff (a : Acc) :
    readingOf a ≠ none ↔ a.get Config.opCo2 ≠ none ∧ a.get Config.opTemp ≠ none := by
  rw [← Option.isSome_iff_ne_none, isSome_readingOf]
  simp [complete, Acc.validBit, Option.isSome_iff_ne_none]

theorem readingOf_eq_none_of_incomplete {a : Acc} (h : complete a = false) : readingOf a = none := by
  rw [← Option.isNone_iff_eq_none, ← Option.not_isSome, isSome_readingOf, h]
  rfl

/-- The mandatory members of a Reading are the entries it was built from. -/
theorem get_of_readingOf_eq_some {a : Acc} {r : Reading} (h : readingOf a = some r) :
    a.get Config.opCo2 = some r.co2Ppm ∧ a.get Config.opTemp = some r.tempRaw := by
  have hc : complete a = true := by rw [← isSome_readingOf, h]; rfl
  obtain ⟨c, t, hco2, htemp⟩ := (complete_iff a).mp hc
  obtain rfl : _ = r := Option.some.inj ((readingOf_eq_some hco2 htemp).symm.trans h)
  exact ⟨hco2, htemp⟩

/-- A Field that completes an incomplete ACC is the mandatory entry that was absent, and the Reading carries its value
(41_accumulator.md R144). -/
theorem field_of_completing_upsert {a : Acc} {fd : Field} {r : Reading} (ha : complete a = false)
    (h : readingOf (a.upsert fd.op fd.value) = some r) :
    fd = ⟨Config.opCo2, r.co2Ppm⟩ ∨ fd = ⟨Config.opTemp, r.tempRaw⟩ := by
  obtain ⟨hco2, htemp⟩ := get_of_readingOf_eq_some h
  exact ((complete_eq_false_iff a).mp ha).imp (Acc.field_of_get_upsert_of_absent · hco2)
    (Acc.field_of_get_upsert_of_absent · htemp)

/-! ### The Field step, field by field (41_accumulator.md R130) -/

section fieldStep
variable (f : Field) (s : State)

@[simp] theorem fieldStep_key : (fieldStep f s).key = s.key := by
  rcases fieldStep_cases f s with ⟨_, _, _, h⟩ | ⟨_, h⟩ <;> rw [h]

@[simp] theorem fieldStep_n : (fieldStep f s).n = s.n := by
  rcases fieldStep_cases f s with ⟨_, _, _, h⟩ | ⟨_, h⟩ <;> rw [h]

@[simp] theorem fieldStep_inputs : (fieldStep f s).inputs = s.inputs := by
  rcases fieldStep_cases f s with ⟨_, _, _, h⟩ | ⟨_, h⟩ <;> rw [h]

/-- The Field, and the Reading of ACC after the upsert if it has one. -/
@[simp] theorem fieldStep_out : (fieldStep f s).out = ⟨some f, none, readingOf (s.acc.upsert f.op f.value)⟩ := by
  rcases fieldStep_cases f s with ⟨_, hr, _, h⟩ | ⟨hc, h⟩
  · rw [h, hr]
  · rw [h, readingOf_eq_none_of_incomplete hc]

theorem fieldStep_acc : (fieldStep f s).acc =
    if complete (s.acc.upsert f.op f.value) = true then Acc.empty else s.acc.upsert f.op f.value := by
  rcases fieldStep_cases f s with ⟨_, _, hc, h⟩ | ⟨hc, h⟩ <;> simp [h, hc]

theorem fieldStep_acc_congr {s t : State} (h : s.acc = t.acc) : (fieldStep f s).acc = (fieldStep f t).acc := by
  rw [fieldStep_acc, fieldStep_acc, h]

theorem fieldStep_fsm_of_collecting {s : State} (hs : s.fsm = .collecting) : (fieldStep f s).fsm = .collecting := by
  rcases fieldStep_cases f s with ⟨_, _, _, h⟩ | ⟨_, h⟩ <;> simp [h, hs]

end fieldStep

/-! ### The decoder's outcomes (40_frame_decoder.md R108 to R110) -/

theorem decode_of_valid {k : Key} {f : Frame} (h : valid (candidate k f) = true) :
    decode k f = .field (fieldOf (candidate k f)) := by
  simp [decode, h]

theorem decode_of_invalid {k : Key} {f : Frame} (h : valid (candidate k f) = false) :
    decode k f = .checksumError ⟨f, candidate k f⟩ := by
  simp [decode, h]

/-- A Field comes only from a valid candidate (10_state.md R36). -/
theorem valid_of_decode_eq_field {k : Key} {f : Frame} {fd : Field} (h : decode k f = .field fd) :
    valid (candidate k f) = true ∧ fd = fieldOf (candidate k f) := by
  by_cases hv : valid (candidate k f) = true
  · rw [decode_of_valid hv] at h
    exact ⟨hv, (Decoded.field.inj h).symm⟩
  · rw [decode_of_invalid (by simpa using hv)] at h
    nomatch h

/-! ### The step on each request (45_host_interface.md R162 to R165) -/

section step
variable {s : State}

theorem step_of_reset (hop : (portsNow s).op = .reset) : step s = .next (hostReset (consumePorts s)) := by
  rw [step, hop]
  rfl

theorem step_of_loadKey {k : Key} (hop : (portsNow s).op = .loadKey k) (hk : s.key = none) :
    step s = .next { consumePorts s with key := some k, out := Outputs.quiet } := by
  rw [step, hop]
  exact hostLoadKey_of_none k hk

theorem step_of_idle (hop : (portsNow s).op = .idle) : step s = .next (hostIdle (consumePorts s)) := by
  rw [step, hop]
  rfl

theorem step_of_push (f : Frame) (hop : (portsNow s).op = .push f) : step s = hostPush f (consumePorts s) := by
  rw [step, hop]
  rfl

theorem step_of_push_field {f : Frame} {k : Key} {fd : Field} (hop : (portsNow s).op = .push f) (hk : s.key = some k)
    (hd : decode k f = .field fd) : step s = .next (fieldStep fd (nextIndex (consumePorts s))) := by
  rw [step_of_push f hop]
  rcases hostPush_keyed (s := consumePorts s) hk f with ⟨fd', hd', hp⟩ | ⟨_, hd', _⟩
  · obtain rfl : fd' = fd := Decoded.field.inj (hd'.symm.trans hd)
    exact hp
  · nomatch hd'.symm.trans hd

theorem step_of_push_checksumError {f : Frame} {k : Key} {e : ErrorReport} (hop : (portsNow s).op = .push f)
    (hk : s.key = some k) (hd : decode k f = .checksumError e) :
    step s = .next (takeChecksumError e (nextIndex (consumePorts s))) := by
  rw [step_of_push f hop]
  rcases hostPush_keyed (s := consumePorts s) hk f with ⟨_, hd', _⟩ | ⟨e', hd', hp⟩
  · nomatch hd'.symm.trans hd
  · obtain rfl : e' = e := Decoded.checksumError.inj (hd'.symm.trans hd)
    exact hp

end step

/-! ### The invariant (70_reset_and_hazards.md R200, 10_state.md R26, R37) -/

theorem outputsOk_of_no_reading {o : Outputs} (hx : o.field = none ∨ o.err = none) (hr : o.reading = none) :
    OutputsOk o :=
  ⟨hx, fun _ h => nomatch hr.symm.trans h⟩

theorem outputsOk_quiet : OutputsOk Outputs.quiet := outputsOk_of_no_reading (.inl rfl) rfl

section Inv
variable {s : State}

/-- The invariant does not look at the requests to come. -/
theorem inv_consumePorts (h : Inv s) : Inv (consumePorts s) :=
  ⟨h.collecting, h.incomplete, h.accWf, h.noKey, h.cleared, h.outputsOk⟩

/-- Counting a frame is allowed once a key is loaded. -/
theorem inv_nextIndex {k : Key} (hk : s.key = some k) (h : Inv s) : Inv (nextIndex s) :=
  ⟨h.collecting, h.incomplete, h.accWf, fun hn => absurd hn (by simp [hk]), h.cleared, h.outputsOk⟩

/-- RESET establishes the invariant from every state. -/
theorem inv_hostReset (s : State) : Inv (hostReset s) :=
  ⟨rfl, rfl, rfl, fun _ => ⟨rfl, rfl⟩, fun _ => rfl, outputsOk_quiet⟩

theorem inv_loadKey (k : Key) (h : Inv s) : Inv { s with key := some k, out := Outputs.quiet } :=
  ⟨h.collecting, h.incomplete, h.accWf, fun hn => absurd hn (Option.some_ne_none k), fun hr => absurd rfl hr,
    outputsOk_quiet⟩

theorem inv_hostIdle (h : Inv s) : Inv (hostIdle s) :=
  ⟨h.collecting, h.incomplete, h.accWf, h.noKey, fun hr => absurd rfl hr, outputsOk_quiet⟩

theorem inv_takeChecksumError (e : ErrorReport) (h : Inv s) : Inv (takeChecksumError e s) :=
  ⟨h.collecting, h.incomplete, h.accWf, h.noKey, fun hr => absurd rfl hr, outputsOk_of_no_reading (.inl rfl) rfl⟩

/-- The Field step keeps the invariant: ACC is cleared exactly where the upsert completes it, and there the Field is the
mandatory one that was missing. -/
theorem inv_fieldStep {k : Key} (fd : Field) (hk : s.key = some k) (h : Inv s) : Inv (fieldStep fd s) where
  collecting := fieldStep_fsm_of_collecting fd h.collecting
  incomplete := by
    rw [fieldStep_acc]
    split
    · rfl
    · next hc => simpa using hc
  accWf := by
    rw [fieldStep_acc]
    split
    · rfl
    · exact Acc.wf_upsert _ _ _ h.accWf
  noKey hn := by simp [hk] at hn
  cleared hr := by
    rw [fieldStep_out, ← Option.isSome_iff_ne_none, isSome_readingOf] at hr
    rw [fieldStep_acc, if_pos hr]
  outputsOk := by
    rw [fieldStep_out]
    exact ⟨.inr rfl, fun r hr => (field_of_completing_upsert h.incomplete hr).imp (congrArg some) (congrArg some)⟩

end Inv

/-- Settles O54: each thing a step can do keeps the invariant by the lemma about it. -/
theorem everyStepKeepsTheInvariant : Obligations.EveryStepKeepsTheInvariant := by
  intro s t hinv hstep
  have hs := inv_consumePorts hinv
  rcases step_next_cases hstep with ⟨_, rfl⟩ | ⟨k, _, _, rfl⟩ | ⟨_, rfl⟩ | ⟨_, _, fd, _, hk, _, rfl⟩ |
    ⟨_, _, e, _, hk, _, rfl⟩
  · exact inv_hostReset _
  · exact inv_loadKey k hs
  · exact inv_hostIdle hs
  · exact inv_fieldStep fd hk (inv_nextIndex hk hs)
  · exact inv_takeChecksumError e (inv_nextIndex hk hs)

/-! ### What a step writes and what it depends on -/

/-- Only the Field step outputs a Field, and the frame it comes from was pushed. -/
theorem push_of_field_output {s t : State} {fd : Field} (hstep : step s = .next t) (hout : t.out.field = some fd) :
    ∃ f k, (portsNow s).op = .push f ∧ s.key = some k ∧ decode k f = .field fd := by
  rcases step_next_cases hstep with ⟨_, rfl⟩ | ⟨_, _, _, rfl⟩ | ⟨_, rfl⟩ | ⟨f, k, fd', hop, hk, hd, rfl⟩ |
    ⟨_, _, _, _, _, _, rfl⟩
  · nomatch hout
  · nomatch hout
  · nomatch hout
  · rw [fieldStep_out] at hout
    obtain rfl : fd' = fd := Option.some.inj hout
    exact ⟨f, k, hop, hk, hd⟩
  · nomatch hout

/-- Both mandatory entries are present after an upsert exactly where each is the one written or was there before. -/
theorem readingOf_upsert_ne_none_iff (a : Acc) (op : OpCode) (v : Value) :
    readingOf (a.upsert op v) ≠ none ↔
      ∀ m : OpCode, m = Config.opCo2 ∨ m = Config.opTemp → m = op ∨ a.get m ≠ none := by
  simp only [readingOf_ne_none_iff, Acc.get_upsert_ne_none_iff, forall_eq_or_imp, forall_eq]

/-- Settles O35: a valid candidate is taken by the Field step and an invalid one by the ChecksumError. -/
theorem onlyValidFramesPopulateAcc : Obligations.OnlyValidFramesPopulateAcc := by
  refine ⟨fun s t fd hstep hout => ?_, fun s f k hop hk hv => ?_, fun s f k hop hk hv => ?_⟩
  · obtain ⟨f, k, hop, hk, hd⟩ := push_of_field_output hstep hout
    exact ⟨f, k, hop, hk, valid_of_decode_eq_field hd⟩
  · exact ⟨_, step_of_push_checksumError hop hk (decode_of_invalid hv), rfl, rfl, rfl⟩
  · refine ⟨_, step_of_push_field hop hk (decode_of_valid hv), ?_⟩
    rw [fieldStep_out]
    exact readingOf_upsert_ne_none_iff s.acc _ _

/-- Settles O37: only RESET and the Field step write ACC, the Field step its one entry or, with a Reading, nothing but
absence. -/
theorem accIsWrittenOnlyByFieldsEmissionsAndReset : Obligations.AccIsWrittenOnlyByFieldsEmissionsAndReset := by
  intro s t hstep
  rcases step_next_cases hstep with ⟨hop, rfl⟩ | ⟨_, _, _, rfl⟩ | ⟨_, rfl⟩ | ⟨_, _, fd, _, _, _, rfl⟩ |
    ⟨_, _, _, _, _, _, rfl⟩
  · exact .inr (.inr ⟨.inr hop, fun _ => rfl⟩)
  · exact .inl rfl
  · exact .inl rfl
  · right
    rcases fieldStep_cases fd (nextIndex (consumePorts s)) with ⟨_, _, _, h⟩ | ⟨_, h⟩
    · exact .inr ⟨.inl (by simp [h]), fun op => by simp [h]⟩
    · refine .inl ⟨fd, ?_⟩
      rw [h]
      exact ⟨rfl, rfl, Acc.get_upsert_self .., fun op hne => Acc.get_upsert_ne _ _ hne⟩
  · exact .inl rfl

/-- Everything a step can do to the key (10_state.md R21). -/
theorem step_key_cases {s t : State} (hstep : step s = .next t) :
    t.key = s.key ∨ (∃ k, (portsNow s).op = .loadKey k ∧ s.key = none ∧ t.key = some k) ∨
      ((portsNow s).op = .reset ∧ t.key = none) := by
  rcases step_next_cases hstep with ⟨hop, rfl⟩ | ⟨k, hop, hk, rfl⟩ | ⟨_, rfl⟩ | ⟨_, _, fd, _, _, _, rfl⟩ |
    ⟨_, _, _, _, _, _, rfl⟩
  · exact .inr (.inr ⟨hop, rfl⟩)
  · exact .inr (.inl ⟨k, hop, hk, rfl⟩)
  · exact .inl rfl
  · exact .inl (fieldStep_key _ _)
  · exact .inl rfl

/-- Settles O48: of the cases of `step_key_cases` a loaded key leaves only RESET as the one that changes it. -/
theorem keyIsImmutableButForReset : Obligations.KeyIsImmutableButForReset := by
  refine fun s t hstep => ⟨step_key_cases hstep, fun hkeyed hop => ?_⟩
  rcases step_key_cases hstep with h | ⟨_, _, hnone, _⟩ | ⟨hreset, _⟩
  · exact h
  · simp [State.keyValid, hnone] at hkeyed
  · exact absurd hreset hop

/-- Settles O49: the second state takes the same case of the step as the first, and the outputs, ACC and KEY of each case
are functions of ACC, KEY and the request. -/
theorem stepDependsOnKeyAccAndRequestOnly : Obligations.StepDependsOnKeyAccAndRequestOnly := by
  intro s t s' hkey hacc hports hstep
  rcases step_next_cases hstep with ⟨hop, rfl⟩ | ⟨k, hop, hk, rfl⟩ | ⟨hop, rfl⟩ | ⟨f, k, fd, hop, hk, hd, rfl⟩ |
    ⟨f, k, e, hop, hk, hd, rfl⟩
  · exact ⟨_, step_of_reset (hports ▸ hop), rfl, rfl, rfl⟩
  · exact ⟨_, step_of_loadKey (hports ▸ hop) (hkey ▸ hk), rfl, hacc.symm, rfl⟩
  · exact ⟨_, step_of_idle (hports ▸ hop), rfl, hacc.symm, hkey.symm⟩
  · exact ⟨_, step_of_push_field (hports ▸ hop) (hkey ▸ hk) hd, by simp [hacc],
      fieldStep_acc_congr fd hacc.symm, by simp [hkey]⟩
  · exact ⟨_, step_of_push_checksumError (hports ▸ hop) (hkey ▸ hk) hd, rfl, hacc.symm, hkey.symm⟩

end Sys2Proof.Machine

/-! A run on a list of frames (20_memory.md R57): the requests on the ports, the reference step of 41_accumulator.md R146 as
what the machine does on one PUSH, and the run as its fold. -/

namespace Sys2Proof.Machine

/-! ### The request at the head of the queue (45_host_interface.md R161) -/

@[simp] theorem pushPorts_op (f : Frame) : (pushPorts f).op = .push f := by
  simp [PortsIn.op, pushPorts]

theorem portsNow_of_inputs_cons {s : State} {p : PortsIn} {ps : List PortsIn} (h : s.inputs = p :: ps) :
    portsNow s = p := by
  simp [portsNow, h]

/-! ### One PUSH is the reference step (41_accumulator.md R146) -/

section refStep
variable {k : Key} {f : Frame}

theorem refStep_of_checksumError {e : ErrorReport} (a : AccMap) (hd : decode k f = .checksumError e) :
    refStep k a f = (a, ⟨none, some e, none⟩) := by
  simp only [refStep, hd]

/-- The reference step's mapping after the upsert is that of the register file after it, so both sides split on the
same two entries. -/
theorem refStep_of_field {fd : Field} (s : State) (hd : decode k f = .field fd) :
    refStep k s.acc.get f = ((fieldStep fd s).acc.get, (fieldStep fd s).out) := by
  simp only [refStep, hd, ← Acc.get_upsert]
  split
  · next c t hco2 htemp =>
    have hc := (complete_iff _).mpr ⟨c, t, hco2, htemp⟩
    rw [fieldStep_acc, if_pos hc, fieldStep_out, readingOf_eq_some hco2 htemp]
    rfl
  · next hnot =>
    have hc : ¬complete (s.acc.upsert fd.op fd.value) = true := fun h =>
      have ⟨c, t, hco2, htemp⟩ := (complete_iff _).mp h
      hnot c t hco2 htemp
    rw [fieldStep_acc, if_neg hc, fieldStep_out, readingOf_eq_none_of_incomplete (by simpa using hc)]

/-- A PUSH step under a key: ACC and the outputs are the reference step's, KEY stays, and one frame is counted and
consumed. -/
theorem step_of_push_refStep {s : State} (hk : s.key = some k) (hop : (portsNow s).op = .push f) :
    ∃ t, step s = .next t ∧ refStep k s.acc.get f = (t.acc.get, t.out) ∧ t.key = s.key ∧ t.n = s.n + 1 ∧
      t.inputs = s.inputs.tail := by
  cases hd : decode k f with
  | field fd => exact ⟨_, step_of_push_field hop hk hd, refStep_of_field (nextIndex (consumePorts s)) hd, by simp⟩
  | checksumError e => exact ⟨_, step_of_push_checksumError hop hk hd, refStep_of_checksumError _ hd, rfl, rfl, rfl⟩

end refStep

/-! ### Runs, one step at a time -/

theorem run_succ_of_step {M : Host.Core} {s t : M.State} (h : M.step s = .next t) (m : Nat) :
    M.run (m + 1) s = M.run m t := by
  rw [Host.Core.run, h]

theorem runOutputs_succ_of_step {s t : State} (h : step s = .next t) (m : Nat) :
    runOutputs (m + 1) s = t.out :: runOutputs m t := by
  rw [runOutputs, h]

theorem refRun_cons_of_refStep {k : Key} {a a1 : AccMap} {f : Frame} {o : Outputs} (h : refStep k a f = (a1, o))
    (fs : List Frame) : refRun k a (f :: fs) = ((refRun k a1 fs).1, o :: (refRun k a1 fs).2) := by
  rw [refRun, h]

/-- Settles O40, by induction on the list of frames: the first step is the reference step on the first frame, and it
leaves a keyed state with the other frames in its queue. -/
theorem runOnFramesIsTheFoldOfTheStep : Obligations.RunOnFramesIsTheFoldOfTheStep := by
  intro fs
  induction fs with
  | nil => exact fun s k hk hin => ⟨s, rfl, rfl, rfl, rfl, hk, hin⟩
  | cons f fs ih =>
    intro s k hk hin
    have hop : (portsNow s).op = .push f := by rw [portsNow_of_inputs_cons hin, pushPorts_op]
    obtain ⟨t, hstep, href, hkey, hn, hinputs⟩ := step_of_push_refStep hk hop
    obtain ⟨u, hrun, hacc, hout, hun, hukey, huin⟩ := ih t k (hkey.trans hk) (by simp [hinputs, hin])
    rw [refRun_cons_of_refStep href]
    refine ⟨u, (run_succ_of_step (M := core) hstep _).trans hrun, hacc, ?_, ?_, hukey, huin⟩
    · rw [List.length_cons, runOutputs_succ_of_step hstep, hout]
    · rw [hun, hn, List.length_cons, Nat.add_assoc, Nat.add_comm 1]

end Sys2Proof.Machine

/-! Encoding (30_encoding.md): the transform and ENC, the op-code map, the plaintext frame of an instruction, the
assembler's `.wire` line, and the op-code table read as a decoder. -/

namespace Sys2Proof

open Sys2Proof.Machine

/-! ### Each step of ENC undoes its step of the transform, and the reverse (30_encoding.md R85) -/

section steps
variable (k f : Frame)

@[simp] theorem phase1_unphase1 : phase1 (unphase1 f) = f := Frame.ext_get fun i => by simp

@[simp] theorem unphase1_phase1 : unphase1 (phase1 f) = f := Frame.ext_get fun i => by simp

@[simp] theorem phase2_unphase2 : phase2 k (unphase2 k f) = f := Frame.ext_get fun i => by simp

@[simp] theorem unphase2_phase2 : unphase2 k (phase2 k f) = f := Frame.ext_get fun i => by simp

/-- Byte i of the inner buffer holds bits of bytes i and i + 1, byte i - 1 bits of bytes i - 1 and i. -/
@[simp] theorem phase3_unphase3 : phase3 (unphase3 f) = f :=
  Frame.ext_get fun i => by
    rw [get_phase3, get_unphase3, get_unphase3, sub_add_cancel, mixByte_unmixByte]

@[simp] theorem unphase3_phase3 : unphase3 (phase3 f) = f :=
  Frame.ext_get fun i => by
    rw [get_unphase3, get_phase3, get_phase3, add_sub_cancel_right, unmixByte_mixByte]

@[simp] theorem subCtmp_addCtmp : subCtmp (addCtmp f) = f :=
  Frame.ext_get fun i => by rw [get_subCtmp, get_addCtmp, BitVec.add_sub_cancel]

@[simp] theorem addCtmp_subCtmp : addCtmp (subCtmp f) = f :=
  Frame.ext_get fun i => by rw [get_addCtmp, get_subCtmp, BitVec.sub_add_cancel]

end steps

/-- ENC undoes the steps in the reverse order. -/
@[simp] theorem xform_enc (k : Key) (d : Frame) : xform k (enc k d) = d := by
  simp only [xform, enc, phase1_unphase1, phase2_unphase2, phase3_unphase3, subCtmp_addCtmp]

@[simp] theorem enc_xform (k : Key) (f : Frame) : enc k (xform k f) = f := by
  simp only [xform, enc, addCtmp_subCtmp, unphase3_phase3, unphase2_phase2, unphase1_phase1]

/-- Settles O16: each of the five steps is undone by its own inverse. -/
theorem transformAndEncAreInverse : Obligations.TransformAndEncAreInverse :=
  fun k d f => ⟨xform_enc k d, enc_xform k f⟩

/-! ### The op-code map (30_encoding.md R82) -/

theorem knownOp_eq_false_iff (op : OpCode) :
    knownOp op = false ↔ op ≠ Config.opCo2 ∧ op ≠ Config.opTemp ∧ op ≠ Config.opHum := by
  simp [knownOp, and_assoc]

theorem selectInstr_of_unknown {op : OpCode} (h : knownOp op = false) (v : Value) (pad : Pad) :
    selectInstr op v pad = .unk op v pad := by
  obtain ⟨hco2, htemp, hhum⟩ := (knownOp_eq_false_iff op).mp h
  simp [selectInstr, hco2, htemp, hhum]

/-- Everything the op-code map can give: one of the three named instructions on its own op-code, UNK on every other. -/
theorem selectInstr_cases (op : OpCode) (v : Value) (pad : Pad) :
    (op = Config.opCo2 ∧ selectInstr op v pad = .co2 v pad) ∨
    (op = Config.opTemp ∧ selectInstr op v pad = .temp v pad) ∨
    (op = Config.opHum ∧ selectInstr op v pad = .hum v pad) ∨
    (knownOp op = false ∧ selectInstr op v pad = .unk op v pad) := by
  by_cases hco2 : op = Config.opCo2
  · exact .inl ⟨hco2, by rw [hco2]; rfl⟩
  by_cases htemp : op = Config.opTemp
  · exact .inr (.inl ⟨htemp, by rw [htemp]; rfl⟩)
  by_cases hhum : op = Config.opHum
  · exact .inr (.inr (.inl ⟨hhum, by rw [hhum]; rfl⟩))
  have hunk := (knownOp_eq_false_iff op).mpr ⟨hco2, htemp, hhum⟩
  exact .inr (.inr (.inr ⟨hunk, selectInstr_of_unknown hunk v pad⟩))

section selectInstr
variable (op : OpCode) (v : Value) (pad : Pad)

@[simp] theorem wellFormed_selectInstr : (selectInstr op v pad).wellFormed = true := by
  rcases selectInstr_cases op v pad with ⟨_, h⟩ | ⟨_, h⟩ | ⟨_, h⟩ | ⟨hunk, h⟩ <;> rw [h]
  · rfl
  · rfl
  · rfl
  · simp [Instr.wellFormed, hunk]

@[simp] theorem encode_selectInstr : encode (selectInstr op v pad) = plainFrame op v pad := by
  rcases selectInstr_cases op v pad with ⟨rfl, h⟩ | ⟨rfl, h⟩ | ⟨rfl, h⟩ | ⟨_, h⟩ <;> rw [h] <;> rfl

/-- UNK is exactly the instruction of the op-codes that are not named (41_accumulator.md R134). -/
theorem selectInstr_eq_unk_iff : (∃ w p, selectInstr op v pad = .unk op w p) ↔ knownOp op = false := by
  refine ⟨fun ⟨w, p, h⟩ => ?_, fun h => ⟨v, pad, selectInstr_of_unknown h v pad⟩⟩
  have hwf := wellFormed_selectInstr op v pad
  rw [h] at hwf
  simpa [Instr.wellFormed] using hwf

end selectInstr

/-- A well-formed instruction is the one the op-code map gives on the operands of its plaintext frame. -/
theorem exists_operands_of_wellFormed {i : Instr} (h : i.wellFormed = true) :
    ∃ op v pad, encode i = plainFrame op v pad ∧ selectInstr op v pad = i := by
  cases i with
  | co2 v pad => exact ⟨_, v, pad, rfl, rfl⟩
  | temp v pad => exact ⟨_, v, pad, rfl, rfl⟩
  | hum v pad => exact ⟨_, v, pad, rfl, rfl⟩
  | unk op v pad => exact ⟨op, v, pad, rfl, selectInstr_of_unknown (by simpa [Instr.wellFormed] using h) v pad⟩

/-! ### Candidates and instructions (30_encoding.md R71, R82, R84) -/

theorem valid_iff (d : Frame) : valid d = true ↔ d.b4 = Config.term ∧ sum3 d.b0 d.b1 d.b2 = d.b3 := by
  simp [valid]

theorem decodeCandidate_eq_some_iff {d : Frame} {i : Instr} :
    decodeCandidate d = some i ↔ valid d = true ∧ selectInstr d.b0 (valueOf d) d.pad = i := by
  simp [decodeCandidate]

theorem decodeCandidate_eq_none_iff {d : Frame} : decodeCandidate d = none ↔ ¬valid d = true := by
  simp [decodeCandidate]

theorem decodeCandidate_plainFrame (op : OpCode) (v : Value) (pad : Pad) :
    decodeCandidate (plainFrame op v pad) = some (selectInstr op v pad) :=
  decodeCandidate_eq_some_iff.mpr ⟨valid_plainFrame op v pad, by simp⟩

theorem decodeCandidate_encode {i : Instr} (h : i.wellFormed = true) : decodeCandidate (encode i) = some i := by
  obtain ⟨op, v, pad, henc, rfl⟩ := exists_operands_of_wellFormed h
  rw [henc, decodeCandidate_plainFrame]

theorem valid_encode {i : Instr} (h : i.wellFormed = true) : valid (encode i) = true :=
  (decodeCandidate_eq_some_iff.mp (decodeCandidate_encode h)).1

/-- The terminator and the checksum of a valid frame are functions of the rest (R76, R77). -/
theorem plainFrame_of_valid {d : Frame} (h : valid d = true) : plainFrame d.b0 (valueOf d) d.pad = d := by
  obtain ⟨hterm, hsum⟩ := (valid_iff d).mp h
  simp only [plainFrame, valueOf, Frame.pad, BitVec.extractLsb'_append_eq_left, BitVec.extractLsb'_append_eq_right,
    hsum, ← hterm]

theorem decodeInstr_of_decodeCandidate {k : Key} {f : Frame} {i : Instr}
    (h : decodeCandidate (candidate k f) = some i) : decodeInstr k f = .instr i := by
  simp [decodeInstr, h]

/-- Settles O20: the plaintext frame is plaintext-valid, so it is its own candidate under every key. -/
theorem decodeOfEncodeIsTheInstruction : Obligations.DecodeOfEncodeIsTheInstruction := by
  intro k i h
  apply decodeInstr_of_decodeCandidate
  rw [candidate_of_valid k (valid_encode h), decodeCandidate_encode h]

/-- Settles O21: what a valid candidate decodes to encodes to the plaintext frame of its own operands. -/
theorem encodeOfDecodeIsTheCandidate : Obligations.EncodeOfDecodeIsTheCandidate := by
  intro d i h
  obtain ⟨hv, rfl⟩ := decodeCandidate_eq_some_iff.mp h
  exact ⟨wellFormed_selectInstr .., by rw [encode_selectInstr, plainFrame_of_valid hv]⟩

/-- Settles O13: in each of the two outcomes both decoders read the same candidate. -/
theorem instructionDecoderAgreesWithFieldDecoder : Obligations.InstructionDecoderAgreesWithFieldDecoder := by
  refine ⟨fun k f i hi => ?_, fun k f fd hfd => ?_, fun k f e => ?_⟩ <;>
    rcases decode_cases k f with ⟨_, hd, hdi⟩ | ⟨_, _, hd, hdi⟩
  · obtain rfl := DecodedInstr.instr.inj (hdi.symm.trans hi)
    exact ⟨wellFormed_selectInstr .., by rw [hd, fieldOfInstr_selectInstr]; rfl⟩
  · nomatch hdi.symm.trans hi
  · exact ⟨_, hdi, (fieldOfInstr_selectInstr ..).trans (Decoded.field.inj (hd.symm.trans hfd))⟩
  · nomatch hd.symm.trans hfd
  · simp [hd, hdi]
  · simp [hd, hdi]

/-- Validity on integers, as the spec writes it (40_frame_decoder.md R108). -/
theorem valid_iff_toNat (d : Frame) :
    valid d = true ↔ d.b4 = 0x0D ∧ (d.b0.toNat + d.b1.toNat + d.b2.toNat) &&& 0xFF = d.b3.toNat := by
  rw [valid_iff, ← BitVec.toNat_inj (x := sum3 ..), toNat_sum3, Nat.and_two_pow_sub_one_eq_mod _ 8]
  rfl

/-- Settles O15: validity is the terminator and the sum, and the op-code map is total. -/
theorem everyOpCodeIsLegal : Obligations.EveryOpCodeIsLegal := by
  refine ⟨fun d => ?_, fun op v pad => ⟨_, decodeCandidate_plainFrame op v pad, ?_⟩⟩
  · rw [decodeCandidate_eq_none_iff, valid_iff_toNat, not_and_or]
  · have hfield := fieldOfInstr_selectInstr op v pad
    exact ⟨congrArg Field.op hfield, congrArg Field.value hfield, selectInstr_eq_unk_iff op v pad⟩

/-- Settles O19: the plaintext test comes first; the spec's frame is evaluated. -/
theorem dualValidFrameIsReadAsPlaintext : Obligations.DualValidFrameIsReadAsPlaintext := by
  refine ⟨fun k f hf _ => ?_, by decide⟩
  have hcand := candidate_of_valid k hf
  rw [decode_of_valid (by rw [hcand]; exact hf), hcand]

/-! ### The assembler's `.wire` line (30_encoding.md R81, R86) -/

theorem assemble_wire {i : Instr} (h : i.wellFormed = true) (k : Key) :
    (AsmLine.wire i).assemble k = if valid (enc k (encode i)) = true then none else some (enc k (encode i)) := by
  by_cases hv : valid (enc k (encode i)) = true <;> simp [AsmLine.assemble, h, hv]

/-- A frame of ENC that is not plaintext-valid takes the transform path, which gives the plaintext frame back. -/
theorem decodeInstr_enc_encode {i : Instr} (h : i.wellFormed = true) {k : Key}
    (hv : valid (enc k (encode i)) = false) : decodeInstr k (enc k (encode i)) = .instr i := by
  apply decodeInstr_of_decodeCandidate
  rw [candidate_of_invalid k hv, xform_enc, decodeCandidate_encode h]

/-- Settles O22: `.wire` answers ENC of the plaintext frame exactly where that is not plaintext-valid, and the transform
undoes ENC. -/
theorem wireLinesDecodeToTheirInstruction : Obligations.WireLinesDecodeToTheirInstruction := by
  intro k i h
  rw [assemble_wire h]
  split
  · next hv => exact ⟨iff_of_true rfl hv, fun _ hw => nomatch hw⟩
  · next hv =>
    refine ⟨iff_of_false (Option.some_ne_none _) hv, fun w hw => ?_⟩
    obtain rfl := Option.some.inj hw
    exact ⟨rfl, decodeInstr_enc_encode h (by simpa using hv)⟩

/-! ### The op-code table read as a decoder (30_encoding.md R83)

`ofWord` carries `&&&` over to the bytes, so a row's `(W & mask) = match` is one equation a byte. -/

theorem Frame.ofWord_injective : Function.Injective ofWord :=
  Function.LeftInverse.injective toWord_ofWord

theorem Frame.get_ofWord_and (w w' : Word64) (i : Fin 8) :
    (ofWord (w &&& w')).get i = (ofWord w).get i &&& (ofWord w').get i := by
  simp only [Frame.get_ofWord, BitVec.extractLsb'_and]

theorem toWord_and_eq_iff (d : Frame) (m w : Word64) :
    d.toWord &&& m = w ↔ ∀ i, d.get i &&& (Frame.ofWord m).get i = (Frame.ofWord w).get i := by
  rw [← Frame.ofWord_injective.eq_iff]
  refine ⟨fun h i => ?_, fun h => Frame.ext_get fun i => ?_⟩
  · rw [← h, Frame.get_ofWord_and, Frame.ofWord_toWord]
  · rw [Frame.get_ofWord_and, Frame.ofWord_toWord, h i]

theorem chkRule_toWord (d : Frame) : chkRule d.toWord = (d.b3 == sum3 d.b0 d.b1 d.b2) := by
  have h (w : Word64) : chkRule w =
      ((Frame.ofWord w).b3 == sum3 (Frame.ofWord w).b0 (Frame.ofWord w).b1 (Frame.ofWord w).b2) := rfl
  rw [h, Frame.ofWord_toWord]

/-- A row on the word of a frame: its bits byte by byte, its excluded op-codes, the sum. -/
theorem OpRow.passes_toWord_iff (r : OpRow) (d : Frame) : r.passes d.toWord = true ↔
    (∀ i, d.get i &&& (Frame.ofWord r.mask).get i = (Frame.ofWord r.matchBits).get i) ∧ d.b0 ∉ r.opExcludes ∧
      sum3 d.b0 d.b1 d.b2 = d.b3 := by
  have hop : d.toWord.extractLsb' 56 8 = d.b0 := Frame.extractLsb'_toWord d 0
  simp only [OpRow.passes, Bool.and_eq_true, beq_iff_eq, toWord_and_eq_iff, hop, chkRule_toWord, Bool.not_eq_true',
    List.contains_eq_mem, decide_eq_false_iff_not, and_assoc, eq_comm (a := d.b3)]

/-- The table's row of a named instruction: op-code and terminator are matched. -/
def namedRow (m : Mnemonic) (op : OpCode) : OpRow :=
  ⟨m, (Frame.mk op 0 0 0 Config.term 0 0 0).toWord, (Frame.mk 0xFF 0 0 0 0xFF 0 0 0).toWord, []⟩

/-- The table's last row: only the terminator is matched, and the named op-codes are excluded. -/
def unkRow : OpRow :=
  ⟨.UNK, (Frame.mk 0 0 0 0 Config.term 0 0 0).toWord, (Frame.mk 0 0 0 0 0xFF 0 0 0).toWord,
    [Config.opCo2, Config.opTemp, Config.opHum]⟩

theorem opRows_eq : opRows =
    [namedRow .CO2 Config.opCo2, namedRow .TEMP Config.opTemp, namedRow .HUM Config.opHum, unkRow] := by
  decide

/-- A mask byte 0xFF keeps the byte; `BitVec.and_allOnes` on the literal of the table. -/
theorem byte_and_mask (b : Byte) : b &&& 255#8 = b := BitVec.and_allOnes

theorem passes_namedRow (m : Mnemonic) (op : OpCode) (d : Frame) :
    (namedRow m op).passes d.toWord = (d.b0 == op && valid d) := by
  rw [Bool.eq_iff_iff, OpRow.passes_toWord_iff]
  simp [namedRow, Fin.forall_fin_succ, Frame.get, byte_and_mask, valid_iff, and_assoc]

theorem passes_unkRow (d : Frame) : unkRow.passes d.toWord = (!knownOp d.b0 && valid d) := by
  rw [Bool.eq_iff_iff, OpRow.passes_toWord_iff]
  simp [unkRow, Fin.forall_fin_succ, Frame.get, byte_and_mask, valid_iff, knownOp_eq_false_iff, and_assoc,
    and_left_comm]

/-- On a valid candidate a named row passes exactly on its own op-code and UNK's on every other. -/
theorem tableDecode_toWord_of_valid {d : Frame} (hv : valid d = true) (v : Value) (pad : Pad) :
    tableDecode d.toWord = some (selectInstr d.b0 v pad).mnemonic := by
  simp only [tableDecode, opRows_eq, List.find?_cons, passes_namedRow, passes_unkRow, hv, Bool.and_true]
  rcases selectInstr_cases d.b0 v pad with ⟨hop, hi⟩ | ⟨hop, hi⟩ | ⟨hop, hi⟩ | ⟨hunk, hi⟩ <;> rw [hi]
  · rw [hop]; rfl
  · rw [hop]; rfl
  · rw [hop]; rfl
  · obtain ⟨hco2, htemp, hhum⟩ := (knownOp_eq_false_iff d.b0).mp hunk
    rw [beq_false_of_ne hco2, beq_false_of_ne htemp, beq_false_of_ne hhum, hunk]
    rfl

theorem tableDecode_toWord_of_not_valid {d : Frame} (hv : ¬valid d = true) : tableDecode d.toWord = none := by
  simp [tableDecode, opRows_eq, passes_namedRow, passes_unkRow, hv]

/-- Settles O14: of a valid candidate the first row that passes is that of its op-code, and no row passes on another. -/
theorem tableDecoderAgreesWithDecoder : Obligations.TableDecoderAgreesWithDecoder := by
  intro d
  by_cases hv : valid d = true
  · rw [decodeCandidate_eq_some_iff.mpr ⟨hv, rfl⟩, tableDecode_toWord_of_valid hv, Option.map_some]
  · rw [decodeCandidate_eq_none_iff.mpr hv, tableDecode_toWord_of_not_valid hv, Option.map_none]

end Sys2Proof

/-! The Frame Decoder (40_frame_decoder.md): the five steps of the transform as the spec's formulas, validity and the
two outcomes of a decode, and how many frames are valid. -/

namespace Sys2Proof

open Sys2Proof.Machine

/-! ### Step 1 (R102) -/

theorem bijective_shuffle : Function.Bijective shuffle := Function.Involutive.bijective shuffle_shuffle

/-- Settles O3: the scatter is the gather of `phase1_eq_gather`, and the table is its own inverse. -/
theorem stepOneScattersByTheShuffleTable : Obligations.StepOneScattersByTheShuffleTable :=
  ⟨rfl, fun f i => by rw [get_phase1, shuffle_shuffle], phase1_eq_gather,
    fun p f => (scatterOnto_eq_gather p f).trans (phase1_eq_gather f).symm, bijective_shuffle, by decide⟩

/-! ### Step 2 (R103, R113 (d)) -/

/-- The all-zero key. -/
def zeroKey : Key := ⟨0, 0, 0, 0, 0, 0, 0, 0⟩

@[simp] theorem get_zeroKey (i : Fin 8) : zeroKey.get i = 0 := by
  fin_cases i <;> rfl

@[simp] theorem phase2_zeroKey (p : Frame) : phase2 zeroKey p = p :=
  Frame.ext_get fun i => by rw [get_phase2, get_zeroKey]; exact BitVec.xor_zero

/-- Settles O4: the mix is the XOR byte by byte, and 0 is its neutral byte. -/
theorem stepTwoMixesTheKey : Obligations.StepTwoMixesTheKey :=
  ⟨fun k p i => by rw [get_phase2, BitVec.toNat_xor], phase2_zeroKey, fun _ _ => rfl, by decide⟩

/-- The key moved in front of the permutation meets each byte where the permutation takes it. -/
theorem phase1_fold_key (k : Key) (f : Frame) :
    phase1 (Frame.ofFn fun i => f.get i ^^^ k.get (shuffle i)) = phase2 k (phase1 f) :=
  Frame.ext_get fun j => by rw [get_phase1, Frame.get_ofFn, shuffle_shuffle, get_phase2, get_phase1]

/-- Settles O17: the folded frame gives the buffer of step 2, which the all-zero key leaves as it is. -/
theorem keyFoldsIntoTheRawFrame : Obligations.KeyFoldsIntoTheRawFrame := by
  intro k f
  change xform k f = xform zeroKey _
  rw [xform, xform, phase1_fold_key, phase2_zeroKey]

/-! ### Two shifted bytes joined: the shape of steps 3 and 4 (R104, R105)

Where the shifts add up to 8, the low bits come from the one byte and the high bits from the other. -/

section shifts
variable (a b : Byte) {m n : Nat}

theorem getLsbD_shift_or (h : m + n = 8) {j : Nat} (hj : j < 8) :
    (a >>> m ||| b <<< n).getLsbD j = if j < n then a.getLsbD (m + j) else b.getLsbD (j - n) := by
  rw [BitVec.getLsbD_or, BitVec.getLsbD_ushiftRight, BitVec.getLsbD_shiftLeft]
  split
  · next hlow => simp [hlow]
  · next hhigh => simp [hhigh, hj, BitVec.getLsbD_of_ge a (m + j) (by omega)]

theorem extractLsb'_shift_or_low (h : m + n = 8) : (a >>> m ||| b <<< n).extractLsb' 0 n = a.extractLsb' m n := by
  apply BitVec.eq_of_getLsbD_eq
  intro j hj
  simp [getLsbD_shift_or a b h (show j < 8 by omega), hj]

theorem extractLsb'_shift_or_high (h : m + n = 8) : (a >>> m ||| b <<< n).extractLsb' n m = b.extractLsb' 0 m := by
  apply BitVec.eq_of_getLsbD_eq
  intro j hj
  simp [getLsbD_shift_or a b h (show n + j < 8 by omega), hj]

/-- The two parts never overlap. -/
theorem shift_and_eq_zero (h : m + n = 8) : (a >>> m) &&& (b <<< n) = 0 := by
  apply BitVec.eq_of_getLsbD_eq
  intro j hj
  rw [BitVec.getLsbD_and, BitVec.getLsbD_ushiftRight, BitVec.getLsbD_shiftLeft]
  by_cases hlow : j < n
  · simp [hlow]
  · simp [BitVec.getLsbD_of_ge a (m + j) (by omega)]

end shifts

/-! ### Step 3 (R104, R113 (b)) -/

theorem byteIndex_sub_one (i : Fin 8) : i - 1 = ⟨(i.val + 7) % 8, Nat.mod_lt _ (by omega)⟩ := by
  revert i
  decide

/-- Settles O5: the byte formula is `toNat_mixByte`, and the bit positions are those of two shifts by 3 and 5. -/
theorem stepThreeMixesBitsAcrossBytes : Obligations.StepThreeMixesBitsAcrossBytes := by
  refine ⟨fun p i => ?_, fun p i => ?_, fun cur prev => shift_and_eq_zero cur prev rfl, fun _ => rfl, by decide,
    by decide, by decide⟩
  · rw [get_phase3, toNat_mixByte, byteIndex_sub_one, Nat.and_two_pow_sub_one_eq_mod _ 8]
  · rw [get_phase3]
    exact ⟨extractLsb'_shift_or_low _ _ rfl, extractLsb'_shift_or_high _ _ rfl⟩

/-- A rotate right by r takes bit j from r places above it, around the end of the word. -/
theorem getLsbD_rotateRight_mod (w : Word64) {r j : Nat} (hr : r < 64) (hj : j < 64) :
    (w.rotateRight r).getLsbD j = w.getLsbD ((j + r) % 64) := by
  rw [BitVec.getLsbD_rotateRight, Nat.mod_eq_of_lt hr]
  by_cases h : j < 64 - r
  · rw [decide_eq_true h, cond_true, Nat.mod_eq_of_lt (by omega), Nat.add_comm]
  · rw [decide_eq_false h, cond_false, decide_eq_true hj, Bool.true_and]
    congr 1
    omega

/-- Bit b of byte i comes from bit b + 3 of the same byte or bit b - 5 of the byte before it, which in the word both
stand 3 places above. -/
theorem toWord_phase3 (p : Frame) : (phase3 p).toWord = p.toWord.rotateRight 3 := by
  apply word64_ext
  intro i b hb
  rw [getLsbD_toWord _ i b hb, get_phase3, mixByte, getLsbD_shift_or _ _ rfl hb,
    getLsbD_rotateRight_mod _ (by omega) (by omega)]
  split
  · rw [← getLsbD_toWord p i (3 + b) (by omega)]
    congr 1
    omega
  · rw [← getLsbD_toWord p (i - 1) (b - 5) (by omega), byteIndex_sub_one]
    congr 1
    dsimp only
    omega

/-! ### Step 4 (R105) -/

/-- `((c >> 4) | (c << 4)) & 0xFF`. -/
theorem toNat_swapNibbles (c : Byte) : (swapNibbles c).toNat = (c.toNat >>> 4 ||| c.toNat <<< 4) &&& 0xFF := by
  rw [Nat.and_two_pow_sub_one_eq_mod _ 8, Nat.or_mod_two_pow, swapNibbles, BitVec.toNat_or, BitVec.toNat_ushiftRight,
    BitVec.toNat_shiftLeft, Nat.mod_eq_of_lt (a := c.toNat >>> 4) ((Nat.shiftRight_le _ _).trans_lt c.isLt)]

/-- Settles O6: the swap is the formula for every byte, and its two shifts by 4 exchange the nibbles. -/
theorem stepFourSwapsNibblesOfTheConstant : Obligations.StepFourSwapsNibblesOfTheConstant := by
  refine ⟨rfl, fun i => ?_, fun c => ⟨extractLsb'_shift_or_low c c rfl, extractLsb'_shift_or_high c c rfl⟩, rfl⟩
  rw [ctmp, Frame.get_ofFn, toNat_swapNibbles]

/-! ### Step 5 (R106) -/

/-- The wrapping difference of two bytes. -/
theorem toNat_byte_sub (a b : Byte) : (a - b).toNat = (0x100 + a.toNat - b.toNat) &&& 0xFF := by
  have := b.isLt
  rw [Nat.and_two_pow_sub_one_eq_mod _ 8, BitVec.toNat_sub]
  omega

/-- Settles O7: `toNat_byte_sub` on each byte, with both bytes below 256. -/
theorem stepFiveSubtractsByteWise : Obligations.StepFiveSubtractsByteWise := by
  refine ⟨fun p i => ?_, fun p i => ?_, fun p i => ?_, fun p i h => ?_, fun p i h => ?_, by decide⟩
  · rw [get_subCtmp, toNat_byte_sub]
  · have := (p.get i).isLt
    have := (ctmp.get i).isLt
    omega
  · have := (ctmp.get i).isLt
    rw [get_subCtmp, toNat_byte_sub, Nat.and_two_pow_sub_one_eq_mod _ 8]
    omega
  · rw [get_subCtmp, h]
    exact BitVec.sub_self _
  · rw [get_subCtmp, toNat_byte_sub, h]
    rfl

/-- Settles O8: steps 2 and 5 by their byte equations, step 3 by `toWord_phase3`; the constants are evaluated. -/
theorem transformFormulasHaveTheDerivedProperties : Obligations.TransformFormulasHaveTheDerivedProperties :=
  ⟨shuffle_shuffle, get_phase1, toWord_phase3, by decide, by decide,
    fun p q i h => by rw [get_subCtmp, get_subCtmp, h], fun k p q i h => by rw [get_phase2, get_phase2, h]⟩

/-! ### Validity (R101, R108) -/

theorem valid_iff_toNat_mod (d : Frame) : valid d = true ↔
    d.b4.toNat = 0x0D ∧ (d.b0.toNat + d.b1.toNat + d.b2.toNat) % 256 = d.b3.toNat := by
  rw [valid_iff_toNat, ← BitVec.toNat_inj (x := d.b4), Nat.and_two_pow_sub_one_eq_mod _ 8]
  rfl

/-- Bytes 5 to 7 are not examined. -/
theorem valid_with_pad (d : Frame) (x y z : Byte) : valid { d with b5 := x, b6 := y, b7 := z } = valid d := rfl

theorem decode_of_plaintext_valid (k : Key) {f : Frame} (h : valid f = true) : decode k f = .field (fieldOf f) := by
  have hcand := candidate_of_valid k h
  rw [decode_of_valid (by rw [hcand]; exact h), hcand]

/-- Settles O2: a plaintext-valid frame is its own candidate, so the key does not reach its decode. -/
theorem passThroughTestComesFirst : Obligations.PassThroughTestComesFirst := by
  refine ⟨fun f => ?_, fun k _ => candidate_of_valid k, fun k _ => candidate_of_invalid k, fun k k' f h => ?_,
    valid_with_pad, by decide⟩
  · rw [valid_iff_toNat_mod, Nat.and_two_pow_sub_one_eq_mod _ 8]
  · rw [decode_of_plaintext_valid k h, decode_of_plaintext_valid k' h]

/-! ### The two outcomes of a decode (R108 to R110) -/

theorem decode_eq_checksumError_iff (k : Key) (f : Frame) (e : ErrorReport) :
    decode k f = .checksumError e ↔ valid (candidate k f) = false ∧ e = ⟨f, candidate k f⟩ := by
  cases hv : valid (candidate k f) with
  | true => simp [decode_of_valid hv]
  | false => simp [decode_of_invalid hv, eq_comm]

theorem tag_decode_eq_one_iff (k : Key) (f : Frame) : (decode k f).tag = 1 ↔ valid (candidate k f) = false := by
  cases hv : valid (candidate k f) with
  | true => simp [decode_of_valid hv, Decoded.tag]
  | false => simp [decode_of_invalid hv, Decoded.tag]

/-- Settles O9: validity on integers is `valid_iff_toNat_mod`, and it decides the tag. -/
theorem checksumValidationDecidesTheOutcome : Obligations.ChecksumValidationDecidesTheOutcome := by
  refine ⟨valid_iff_toNat_mod, fun d => ?_, tag_decode_eq_one_iff, valid_with_pad, by decide, by decide⟩
  have := d.b0.isLt
  have := d.b1.isLt
  have := d.b2.isLt
  omega

theorem fieldOf_congr {d e : Frame} (h0 : d.b0 = e.b0) (h1 : d.b1 = e.b1) (h2 : d.b2 = e.b2) :
    fieldOf d = fieldOf e := by
  rw [fieldOf, fieldOf, valueOf, valueOf, h0, h1, h2]

/-- Settles O10: the value is `valueOf` of the candidate in both of its forms as a number. -/
theorem fieldIsOpCodeAndBigEndianValue : Obligations.FieldIsOpCodeAndBigEndianValue :=
  ⟨fun _ _ hv => ⟨_, decode_of_valid hv, toNat_valueOf _, toNat_valueOf_add _⟩, fun _ _ => fieldOf_congr,
    fun k => decode_of_plaintext_valid k (by decide)⟩

/-- A frame with an invalid candidate is counted, and nothing else of the state changes (R110, 10_state.md R27). -/
theorem hostPush_of_invalid {k : Key} {f : Frame} {s : State} (hk : s.key = some k)
    (hv : valid (candidate k f) = false) :
    hostPush f s = .next (takeChecksumError ⟨f, candidate k f⟩ (nextIndex s)) := by
  rcases hostPush_keyed hk f with ⟨fd, hd, _⟩ | ⟨e, hd, hp⟩
  · nomatch hd.symm.trans (decode_of_invalid hv)
  · obtain ⟨_, rfl⟩ := (decode_eq_checksumError_iff k f e).mp hd
    exact hp

/-- Settles O11: the report is `decode_eq_checksumError_iff`, and PUSH takes it by `hostPush_of_invalid`. -/
theorem checksumErrorCarriesRawFrameAndCandidate : Obligations.ChecksumErrorCarriesRawFrameAndCandidate :=
  ⟨decode_eq_checksumError_iff, fun _ _ _ => hostPush_of_invalid, by decide⟩

/-! ### How many frames are valid (R84, R113 (f)) -/

/-- What is free in a valid frame: op-code, value and pad, 48 bits. -/
def payload (d : Frame) : BitVec 48 := d.b0 ++ valueOf d ++ d.b5 ++ d.b6 ++ d.b7

/-- The plaintext frame with the given op-code, value and pad. -/
def ofPayload (w : BitVec 48) : Frame :=
  plainFrame (w.extractLsb' 40 8) (w.extractLsb' 24 16) ⟨w.extractLsb' 16 8, w.extractLsb' 8 8, w.extractLsb' 0 8⟩

theorem payload_ofPayload (w : BitVec 48) : payload (ofPayload w) = w := by
  rw [payload, ofPayload, valueOf_plainFrame]
  simp (disch := decide) only [plainFrame, BitVec.extractLsb'_append_extractLsb'_eq_extractLsb']
  exact BitVec.extractLsb'_eq_self

theorem ofPayload_payload {d : Frame} (h : valid d = true) : ofPayload (payload d) = d := by
  rw [← plainFrame_of_valid h]
  simp only [ofPayload, payload, extractLsb'_append_byte, BitVec.extractLsb'_append_eq_left,
    BitVec.extractLsb'_append_eq_right, valueOf_plainFrame]
  rfl

theorem ofPayload_injective : Function.Injective ofPayload := Function.LeftInverse.injective payload_ofPayload

theorem valid_iff_exists_ofPayload (d : Frame) : valid d = true ↔ ∃ w, ofPayload w = d :=
  ⟨fun h => ⟨payload d, ofPayload_payload h⟩, fun ⟨_, hw⟩ => hw ▸ valid_plainFrame ..⟩

theorem enc_injective (k : Key) : Function.Injective (enc k) := Function.LeftInverse.injective (xform_enc k)

theorem enc_eq_iff (k : Key) (d f : Frame) : enc k d = f ↔ d = xform k f :=
  ⟨fun h => by rw [← h, xform_enc], fun h => by rw [h, enc_xform]⟩

/-- Settles O18: `ofPayload` gives each plaintext-valid frame once, and ENC carries these to the frames whose transform
is valid. -/
theorem validFramesAreTwoToTheFortyEight : Obligations.ValidFramesAreTwoToTheFortyEight :=
  ⟨⟨ofPayload, ofPayload_injective, valid_iff_exists_ofPayload⟩,
    fun k => ⟨enc k ∘ ofPayload, (enc_injective k).comp ofPayload_injective, fun f => by
      simp only [valid_iff_exists_ofPayload, Function.comp_apply, enc_eq_iff]⟩⟩

end Sys2Proof

/-! The Reading Accumulator (41_accumulator.md): when an upsert completes ACC, what each instruction does to the state, the
units of a Reading, and the statements about steps and runs that follow. -/

namespace Sys2Proof.Machine

/-! ### The completion predicate after an upsert (41_accumulator.md R135) -/

theorem opTemp_ne_opCo2 : Config.opTemp ≠ Config.opCo2 := by decide

theorem opHum_ne_opCo2 : Config.opHum ≠ Config.opCo2 := by decide

theorem opHum_ne_opTemp : Config.opHum ≠ Config.opTemp := by decide

theorem complete_iff_ne_none (a : Acc) :
    complete a = true ↔ a.get Config.opCo2 ≠ none ∧ a.get Config.opTemp ≠ none := by
  rw [← readingOf_ne_none_iff, ← Option.isSome_iff_ne_none, isSome_readingOf]

theorem readingOf_ne_none_iff_complete (a : Acc) : readingOf a ≠ none ↔ complete a = true := by
  rw [readingOf_ne_none_iff, complete_iff_ne_none]

/-- The humidity of a Reading is the entry as it stands, absent where it is absent (R136). -/
theorem get_opHum_of_readingOf_eq_some {a : Acc} {r : Reading} (h : readingOf a = some r) :
    a.get Config.opHum = r.humRaw := by
  obtain ⟨hco2, htemp⟩ := get_of_readingOf_eq_some h
  exact congrArg Reading.humRaw (Option.some.inj ((readingOf_eq_some hco2 htemp).symm.trans h))

/-- Only the two mandatory entries enter the predicate. -/
theorem complete_upsert_of_ne (a : Acc) {op : OpCode} (v : Value) (hco2 : op ≠ Config.opCo2)
    (htemp : op ≠ Config.opTemp) : complete (a.upsert op v) = complete a := by
  simp only [complete, Acc.validBit, Acc.get_upsert_ne a v hco2.symm, Acc.get_upsert_ne a v htemp.symm]

theorem complete_upsert_co2_iff (a : Acc) (v : Value) :
    complete (a.upsert Config.opCo2 v) = true ↔ a.get Config.opTemp ≠ none := by
  rw [complete_iff_ne_none, Acc.get_upsert_self, Acc.get_upsert_ne a v opTemp_ne_opCo2]
  exact and_iff_right (Option.some_ne_none v)

theorem complete_upsert_temp_iff (a : Acc) (v : Value) :
    complete (a.upsert Config.opTemp v) = true ↔ a.get Config.opCo2 ≠ none := by
  rw [complete_iff_ne_none, Acc.get_upsert_self, Acc.get_upsert_ne a v opTemp_ne_opCo2.symm]
  exact and_iff_left (Option.some_ne_none v)

/-! ### What an instruction does (41_accumulator.md R130 to R137) -/

section fieldStep
variable {f : Field} {s : State}

theorem fieldStep_of_complete (h : complete (s.acc.upsert f.op f.value) = true) :
    fieldStep f s = emitReadingAndClear f (enterComplete (upsertField f s)) :=
  if_pos h

theorem fieldStep_of_incomplete (h : complete (s.acc.upsert f.op f.value) = false) :
    fieldStep f s = emitField f (upsertField f s) :=
  if_neg (Bool.eq_false_iff.mp h)

end fieldStep

/-- An upsert that the next Field of the same op-code overwrites leaves no trace in the Field step (R142). -/
theorem fieldStep_overwrites (f : Field) (s : State) (v : Value) (o : Outputs) :
    fieldStep f { s with acc := s.acc.upsert f.op v, out := o } = fieldStep f s := by
  simp only [fieldStep, upsertField, Acc.upsert_upsert]
  rfl

section exec
variable {i : Instr} {s : State}

theorem exec_of_incomplete (h : complete (s.acc.upsert (opOf i) (valueOperand i)) = false) :
    exec i s = .next { s with
      acc := s.acc.upsert (opOf i) (valueOperand i), out := ⟨some (fieldOfInstr i), none, none⟩ } :=
  (exec_eq i s).trans (congrArg _ (fieldStep_of_incomplete h))

/-- The Reading of a completing instruction, each member given by the entry it is read from. -/
theorem exec_of_complete {c t : Value} {h : Option Value}
    (hco2 : (s.acc.upsert (opOf i) (valueOperand i)).get Config.opCo2 = some c)
    (htemp : (s.acc.upsert (opOf i) (valueOperand i)).get Config.opTemp = some t)
    (hhum : (s.acc.upsert (opOf i) (valueOperand i)).get Config.opHum = h) :
    exec i s = .next { s with
      acc := Acc.empty, fsm := .collecting, out := ⟨some (fieldOfInstr i), none, some ⟨c, t, h⟩⟩ } := by
  have hread : readingOf (s.acc.upsert (opOf i) (valueOperand i)) = some ⟨c, t, h⟩ :=
    hhum ▸ readingOf_eq_some hco2 htemp
  rw [exec_eq, fieldStep_of_complete ((complete_iff _).mpr ⟨c, t, hco2, htemp⟩), ← hread]
  rfl

/-- An instruction of neither mandatory op-code only stores where ACC was not complete before it. -/
theorem exec_of_ne_mandatory_of_incomplete (hco2 : opOf i ≠ Config.opCo2) (htemp : opOf i ≠ Config.opTemp)
    (h : complete s.acc = false) :
    exec i s = .next { s with
      acc := s.acc.upsert (opOf i) (valueOperand i), out := ⟨some (fieldOfInstr i), none, none⟩ } :=
  exec_of_incomplete ((complete_upsert_of_ne _ _ hco2 htemp).trans h)

end exec

/-- Everything an instruction can do: emit the Reading of ACC after the upsert and clear, or store its Field. -/
theorem exec_cases (i : Instr) (s : State) :
    (∃ r, readingOf (s.acc.upsert (opOf i) (valueOperand i)) = some r ∧
      complete (s.acc.upsert (opOf i) (valueOperand i)) = true ∧
      exec i s = .next { s with
        acc := Acc.empty, fsm := .collecting, out := ⟨some (fieldOfInstr i), none, some r⟩ }) ∨
    (complete (s.acc.upsert (opOf i) (valueOperand i)) = false ∧
      exec i s = .next { s with
        acc := s.acc.upsert (opOf i) (valueOperand i), out := ⟨some (fieldOfInstr i), none, none⟩ }) := by
  rw [exec_eq]
  exact (fieldStep_cases (fieldOfInstr i) s).imp (fun ⟨r, hr, hc, h⟩ => ⟨r, hr, hc, congrArg _ h⟩)
    fun ⟨hc, h⟩ => ⟨hc, congrArg _ h⟩

/-- An instruction emits a Reading exactly where its upsert completes ACC. -/
theorem exec_reading_ne_none_iff (i : Instr) (s : State) : ∃ t, exec i s = .next t ∧
    (t.out.reading ≠ none ↔ complete (s.acc.upsert (opOf i) (valueOperand i)) = true) := by
  refine ⟨_, exec_eq i s, ?_⟩
  rw [fieldStep_out]
  exact readingOf_ne_none_iff_complete _

/-- Settles O31: `exec_cases` gives the whole next state of both outcomes. -/
theorem instructionFrame : Obligations.InstructionFrame := by
  intro i s
  rcases exec_cases i s with ⟨_, _, _, h⟩ | ⟨_, h⟩
  · exact ⟨_, h, rfl, rfl, rfl, rfl, rfl, nofun, fun _ => ⟨rfl, fun _ => rfl⟩⟩
  · exact ⟨_, h, rfl, rfl, rfl, rfl, rfl,
      fun _ => ⟨rfl, Acc.get_upsert_self .., fun _ hne => Acc.get_upsert_ne _ _ hne⟩, fun hr => absurd rfl hr⟩

/-- Settles O29: in the completing case of `exec_cases` the members of the Reading are the entries after the upsert. -/
theorem emissionReportsThenClears : Obligations.EmissionReportsThenClears := by
  intro i s
  rcases exec_cases i s with ⟨r, hr, hc, h⟩ | ⟨hc, h⟩
  · obtain ⟨hco2, htemp⟩ := get_of_readingOf_eq_some hr
    have hhum := get_opHum_of_readingOf_eq_some hr
    exact ⟨_, h, fun _ => ⟨r, rfl, hco2, htemp, hhum.symm, fun _ => rfl, rfl⟩, fun hc' => absurd hc' (by simp [hc])⟩
  · exact ⟨_, h, fun hc' => absurd hc' (by simp [hc]), fun _ => rfl⟩

/-- Settles O28: the predicate is the presence of both entries, and each upsert makes its own entry present. -/
theorem completionNeedsExactlyTheMandatoryPair : Obligations.CompletionNeedsExactlyTheMandatoryPair := by
  refine ⟨complete_iff_ne_none, fun a op v hco2 htemp => complete_upsert_of_ne a v hco2 htemp, fun a c t => ⟨?_, ?_⟩,
    exec_reading_ne_none_iff⟩
  · exact (complete_upsert_temp_iff _ t).mpr ((Acc.get_upsert_ne_none_iff a _ _ c).mpr (.inl rfl))
  · exact (complete_upsert_co2_iff _ c).mpr ((Acc.get_upsert_ne_none_iff a _ _ t).mpr (.inl rfl))

/-- Settles O32: without a Reading the first instruction only stored, and the second overwrites what it stored. -/
theorem lastWriteWinsWithinACycle : Obligations.LastWriteWinsWithinACycle := by
  refine ⟨fun i j s t hi hr hop => ?_, fun p q r ⟨_, acc, _, _, _, _⟩ hacc => ?_⟩
  · rcases exec_cases i s with ⟨_, _, _, h⟩ | ⟨_, h⟩ <;> obtain rfl := Host.Outcome.next.inj (h.symm.trans hi)
    · nomatch hr
    · rw [exec_eq, exec_eq, hop]
      exact congrArg _ (fieldStep_overwrites (fieldOfInstr j) s _ _)
  · obtain rfl : acc = Acc.empty := hacc
    exact ⟨_, _, _, rfl, rfl, rfl, rfl⟩

/-! ### The units of a Reading (41_accumulator.md R138 to R140) -/

/-- The raw value as a rational is in the range of 16 bits. -/
theorem value_cast_le (v : Value) : (v.toNat : Rat) ≤ 65535 := by
  have := v.isLt
  exact_mod_cast (by omega : v.toNat ≤ 65535)

theorem temperatureC_eq (v : Value) : temperatureC v = (5 * (v.toNat : Rat) - 21852) / 80 := by
  rw [temperatureC]
  ring

/-- The least value that is not below 0 degrees Celsius is 4371 (R132). -/
theorem temperatureC_neg_iff (v : Value) : v.toNat < 4371 ↔ temperatureC v < 0 := by
  have hint : v.toNat < 4371 ↔ 5 * v.toNat < 21852 := by omega
  rw [temperatureC_eq, div_lt_iff₀ (by norm_num), zero_mul, sub_neg, hint]
  norm_cast

theorem temperatureC_bounds (v : Value) : -273.15 ≤ temperatureC v ∧ temperatureC v ≤ 3822.7875 := by
  have hlo : (0 : Rat) ≤ v.toNat := Nat.cast_nonneg _
  have hhi := value_cast_le v
  rw [temperatureC]
  constructor <;> linarith

theorem humidityPct_bounds (v : Value) : 0 ≤ humidityPct v ∧ humidityPct v ≤ 655.35 := by
  have hlo : (0 : Rat) ≤ v.toNat := Nat.cast_nonneg _
  have hhi := value_cast_le v
  rw [humidityPct]
  constructor <;> linarith

theorem temperatureC_worked_values : temperatureC 0 = -273.15 ∧ temperatureC 65535 = 3822.7875 ∧
    temperatureC 0x1388 = 39.35 ∧ temperatureC 4373 = 0.1625 := by
  simp only [temperatureC, BitVec.reduceToNat]
  norm_num

theorem humidityPct_worked_values :
    humidityPct 0 = 0 ∧ humidityPct 65535 = 655.35 ∧ humidityPct 4567 = 45.67 := by
  simp only [humidityPct, BitVec.reduceToNat]
  norm_num

/-- Settles O30: the ranges are those of a 16-bit value, and the worked values are arithmetic. -/
theorem readingUnitsAreExactRationals : Obligations.ReadingUnitsAreExactRationals := by
  obtain ⟨htempZero, htempMax, htempExample, _⟩ := temperatureC_worked_values
  obtain ⟨hhumZero, hhumMax, hhumExample⟩ := humidityPct_worked_values
  refine ⟨fun r => ⟨rfl, Nat.le_of_lt_succ r.co2Ppm.isLt⟩, fun v => ⟨rfl, temperatureC_eq v, temperatureC_bounds v⟩,
    htempZero, htempMax, htempExample, fun v => ⟨rfl, humidityPct_bounds v⟩, hhumZero, hhumMax, hhumExample,
    fun r => Option.map_eq_none_iff, fun r h hr => ?_, fun o r hr => ⟨?_, ?_, rfl⟩⟩
  · rw [readingHumidityPct, hr, Option.map_some]
  · rw [Outputs.rdCo2, hr, Option.map_some]
  · rw [Outputs.rdTemp, hr, Option.map_some]

/-! ### The four instructions (41_accumulator.md R131 to R134) -/

theorem exec_co2_of_temp (v : Value) (pad : Pad) {s : State} {t : Value} {h : Option Value}
    (htemp : s.acc.get Config.opTemp = some t) (hhum : s.acc.get Config.opHum = h) :
    exec (.co2 v pad) s = .next { s with
      acc := Acc.empty, fsm := .collecting, out := ⟨some ⟨Config.opCo2, v⟩, none, some ⟨v, t, h⟩⟩ } :=
  exec_of_complete (Acc.get_upsert_self ..) ((Acc.get_upsert_ne _ v opTemp_ne_opCo2).trans htemp)
    ((Acc.get_upsert_ne _ v opHum_ne_opCo2).trans hhum)

theorem exec_temp_of_co2 (v : Value) (pad : Pad) {s : State} {c : Value} {h : Option Value}
    (hco2 : s.acc.get Config.opCo2 = some c) (hhum : s.acc.get Config.opHum = h) :
    exec (.temp v pad) s = .next { s with
      acc := Acc.empty, fsm := .collecting, out := ⟨some ⟨Config.opTemp, v⟩, none, some ⟨c, v, h⟩⟩ } :=
  exec_of_complete ((Acc.get_upsert_ne _ v opTemp_ne_opCo2.symm).trans hco2) (Acc.get_upsert_self ..)
    ((Acc.get_upsert_ne _ v opHum_ne_opTemp).trans hhum)

/-- Settles O24: after the upsert of CO2 the predicate is the presence of TEMP. -/
theorem co2WritesItsEntryAndCompletesWithTemp : Obligations.Co2WritesItsEntryAndCompletesWithTemp := by
  refine ⟨fun v pad s => ⟨fun hnone => ⟨_, exec_of_incomplete ?_, fun op => Acc.get_upsert _ _ op _⟩,
    fun t htemp => ⟨_, exec_co2_of_temp v pad htemp rfl, fun _ => rfl⟩⟩,
    fun pad s hacc => exec_co2_of_temp 400 pad ?_ ?_⟩
  · exact (complete_eq_false_iff _).mpr (.inr ((Acc.get_upsert_ne _ v opTemp_ne_opCo2).trans hnone))
  · rw [hacc]
    rfl
  · rw [hacc]
    rfl

/-- Settles O25: after the upsert of TEMP the predicate is the presence of CO2. -/
theorem tempWritesItsEntryAndCompletesWithCo2 : Obligations.TempWritesItsEntryAndCompletesWithCo2 := by
  obtain ⟨hzero, _, _, hexample⟩ := temperatureC_worked_values
  refine ⟨fun v pad s => ⟨fun hnone => ⟨_, exec_of_incomplete ?_, fun op => Acc.get_upsert _ _ op _⟩,
    fun c hco2 => ⟨_, exec_temp_of_co2 v pad hco2 rfl, fun _ => rfl⟩⟩, temperatureC_neg_iff, hzero,
    fun pad s hacc => exec_temp_of_co2 4373 pad ?_ ?_, hexample⟩
  · exact (complete_eq_false_iff _).mpr (.inl ((Acc.get_upsert_ne _ v opTemp_ne_opCo2.symm).trans hnone))
  · rw [hacc]
    rfl
  · rw [hacc]
    rfl

/-- Settles O26: HUM is not mandatory, so its upsert leaves the predicate as it was. -/
theorem humWritesItsEntry : Obligations.HumWritesItsEntry := by
  have hstore (v : Value) (pad : Pad) {s : State} (h : complete s.acc = false) :=
    exec_of_ne_mandatory_of_incomplete (i := .hum v pad) opHum_ne_opCo2 opHum_ne_opTemp h
  refine ⟨fun v pad s => ⟨fun hnone => ⟨_, hstore v pad ((complete_eq_false_iff _).mpr hnone),
      fun op => Acc.get_upsert _ _ op _⟩,
    fun c t hco2 htemp => ⟨Acc.empty, ?_, fun _ => rfl⟩⟩,
    fun v pad s hinv => ⟨_, hstore v pad hinv.incomplete, rfl, Acc.get_upsert_self ..⟩, fun pad s hacc => ?_⟩
  · exact exec_of_complete ((Acc.get_upsert_ne _ v opHum_ne_opCo2.symm).trans hco2)
      ((Acc.get_upsert_ne _ v opHum_ne_opTemp.symm).trans htemp) (Acc.get_upsert_self ..)
  · exact ⟨_, hstore 4567 pad (by rw [hacc]; rfl), by rw [hacc]; rfl, rfl⟩

theorem wellFormed_unk_iff (op : OpCode) (v : Value) (pad : Pad) :
    (Instr.unk op v pad).wellFormed = true ↔ op ≠ Config.opCo2 ∧ op ≠ Config.opTemp ∧ op ≠ Config.opHum := by
  rw [← knownOp_eq_false_iff, Instr.wellFormed, Bool.not_eq_true']

/-- Settles O27: an UNK op-code is none of the three named, so its upsert leaves the predicate and the Reading as they
were. -/
theorem unkWritesItsEntry : Obligations.UnkWritesItsEntry := by
  refine ⟨fun op v pad s hwf => ?_, fun pad s hacc => ?_⟩
  · obtain ⟨hneCo2, hneTemp, hneHum⟩ := (wellFormed_unk_iff op v pad).mp hwf
    refine ⟨fun hnone => ⟨_, exec_of_ne_mandatory_of_incomplete hneCo2 hneTemp ((complete_eq_false_iff _).mpr hnone),
      fun op => Acc.get_upsert _ _ op _⟩, fun c t hco2 htemp => ⟨Acc.empty, ?_, fun _ => rfl⟩⟩
    exact exec_of_complete ((Acc.get_upsert_ne _ v hneCo2.symm).trans hco2)
      ((Acc.get_upsert_ne _ v hneTemp.symm).trans htemp) (Acc.get_upsert_ne _ v hneHum.symm)
  · have h := exec_of_incomplete (i := .unk 0x6D 0x0A5C pad) (s := s) (by rw [hacc]; rfl)
    rw [hacc] at h
    exact h

/-! ### A PUSH step (41_accumulator.md R143, R145, R146) -/

theorem hostPush_of_instr {k : Key} {f : Frame} {i : Instr} {s : State} (hk : s.key = some k)
    (hi : decodeInstr k f = .instr i) : hostPush f s = exec i (nextIndex s) := by
  simp only [hostPush, hk, hi]

/-- Settles O38: PUSH runs the instruction on the state with the ports consumed and the index advanced. -/
theorem stepRunsTheDecodedInstruction : Obligations.StepRunsTheDecodedInstruction :=
  fun s _ f _ hk hop hi => (step_of_push f hop).trans (hostPush_of_instr (s := consumePorts s) hk hi)

/-- Settles O41: the ChecksumError is taken on the state with the ports consumed and the index advanced. -/
theorem checksumErrorChangesNothing : Obligations.ChecksumErrorChangesNothing :=
  fun _ _ _ _ hk hop hd => step_of_push_checksumError hop hk hd

/-- Settles O36: each row is the equation of the step on that outcome of the decoder. -/
theorem stateMachineFollowsItsTable : Obligations.StateMachineFollowsItsTable := by
  intro s f k hfsm hop hk
  refine ⟨fun e hd => ?_, fun fd hd hc => ?_, fun fd hd hc => ?_⟩
  · exact ⟨_, step_of_push_checksumError hop hk hd, hfsm, rfl, rfl, rfl⟩
  · exact ⟨_, (step_of_push_field hop hk hd).trans (congrArg _ (fieldStep_of_incomplete hc)), hfsm, rfl, rfl, rfl⟩
  · have hstep := (step_of_push_field hop hk hd).trans (congrArg _ (fieldStep_of_complete hc))
    obtain ⟨r, hr⟩ := Option.ne_none_iff_exists'.mp ((readingOf_ne_none_iff_complete _).mpr hc)
    exact ⟨_, r, rfl, rfl, rfl, hr, hstep, rfl, rfl, rfl, congrArg (Outputs.mk (some fd) none) hr⟩

/-- A step from Collecting ends in Collecting (10_state.md R26). -/
theorem step_fsm_of_collecting {s t : State} (hstep : step s = .next t) (hs : s.fsm = .collecting) :
    t.fsm = .collecting := by
  rcases step_next_cases hstep with ⟨_, rfl⟩ | ⟨_, _, _, rfl⟩ | ⟨_, rfl⟩ | ⟨_, _, fd, _, _, _, rfl⟩ |
    ⟨_, _, _, _, _, _, rfl⟩
  · rfl
  · exact hs
  · exact hs
  · exact fieldStep_fsm_of_collecting fd hs
  · exact hs

/-- Settles O39: `step_of_push_refStep` simulates the step on mappings, and no step leaves Collecting. -/
theorem pushStepIsTheReferenceStep : Obligations.PushStepIsTheReferenceStep := by
  intro s k f hk hop
  obtain ⟨t, hstep, href, hkey, hn, hinputs⟩ := step_of_push_refStep hk hop
  rw [href]
  exact ⟨t, hstep, rfl, rfl, hkey, hn, hinputs, step_fsm_of_collecting hstep⟩

/-! ### Readings along a run (41_accumulator.md R141, R144) -/

/-- Only the Field step outputs a Reading, and its Field has completed ACC. -/
theorem field_of_reading_output {s t : State} (hstep : step s = .next t) (hr : t.out.reading ≠ none) :
    ∃ fd : Field, t.out.field = some fd ∧ readingOf (s.acc.upsert fd.op fd.value) ≠ none := by
  rcases step_next_cases hstep with ⟨_, rfl⟩ | ⟨_, _, _, rfl⟩ | ⟨_, rfl⟩ | ⟨_, _, fd, _, _, _, rfl⟩ |
    ⟨_, _, _, _, _, _, rfl⟩
  · exact absurd rfl hr
  · exact absurd rfl hr
  · exact absurd rfl hr
  · rw [fieldStep_out] at hr ⊢
    exact ⟨fd, rfl, hr⟩
  · exact absurd rfl hr

section absent
variable {s t : State} {m : OpCode} (hstep : step s = .next t) (habs : s.acc.get m = none)
  (hno : ∀ v : Value, t.out.field ≠ some ⟨m, v⟩)
include hstep habs hno

/-- An absent entry stays absent while no Field of its op-code is received. -/
theorem get_eq_none_of_step : t.acc.get m = none := by
  rcases accIsWrittenOnlyByFieldsEmissionsAndReset s t hstep with hacc | ⟨fd, hfd, _, _, hother⟩ | ⟨_, hnone⟩
  · rw [hacc, habs]
  · have hne : m ≠ fd.op := fun h => hno fd.value (h ▸ hfd)
    rw [hother m hne, habs]
  · exact hnone m

/-- No Reading while a mandatory entry is neither held nor received. -/
theorem reading_eq_none_of_step (hm : m = Config.opCo2 ∨ m = Config.opTemp) : t.out.reading = none := by
  by_contra hr
  obtain ⟨fd, hfd, hread⟩ := field_of_reading_output hstep hr
  rcases (readingOf_upsert_ne_none_iff s.acc fd.op fd.value).mp hread m hm with h | hheld
  · exact hno fd.value (h ▸ hfd)
  · exact hheld habs

end absent

theorem runReadings_succ_of_no_reading {s t : State} (hstep : step s = .next t) (hr : t.out.reading = none) (k : Nat) :
    runReadings (k + 1) s = runReadings k t := by
  simp only [runReadings, runOutputs_succ_of_step hstep, List.filterMap_cons, hr]

/-- By induction on the number of steps: each step emits nothing and leaves the entry absent for the next one. -/
theorem runReadings_eq_nil_of_absent {m : OpCode} (hm : m = Config.opCo2 ∨ m = Config.opTemp) (k : Nat) :
    ∀ s : State, s.acc.get m = none → (∀ o ∈ runOutputs k s, ∀ v : Value, o.field ≠ some ⟨m, v⟩) →
      runReadings k s = [] := by
  induction k with
  | zero => exact fun _ _ _ => rfl
  | succ k ih =>
    intro s habs hno
    cases hstep : step s with
    | next t =>
      rw [runOutputs_succ_of_step hstep, List.forall_mem_cons] at hno
      obtain ⟨hhead, htail⟩ := hno
      rw [runReadings_succ_of_no_reading hstep (reading_eq_none_of_step hstep habs hhead hm)]
      exact ih t (get_eq_none_of_step hstep habs hhead) htail
    | fault _ => simp only [runReadings, runOutputs, hstep, List.filterMap_nil]
    | refused _ => simp only [runReadings, runOutputs, hstep, List.filterMap_nil]

/-- Settles O33: the run by `runReadings_eq_nil_of_absent`; of the ways a step can write ACC only an emission and RESET
clear. -/
theorem noReadingWithoutBothMandatoryFields : Obligations.NoReadingWithoutBothMandatoryFields := by
  refine ⟨fun s op k hm habs hno => runReadings_eq_nil_of_absent hm k s habs hno,
    fun s t op hstep hop hr hheld => ?_⟩
  rcases accIsWrittenOnlyByFieldsEmissionsAndReset s t hstep with hacc | ⟨fd, _, _, hself, hother⟩ | ⟨hclear, _⟩
  · rwa [hacc]
  · by_cases h : op = fd.op
    · rw [h, hself]
      exact Option.some_ne_none _
    · rwa [hother op h]
  · exact absurd hclear (not_or_intro (not_not_intro hr) hop)

/-- Under the invariant only the mandatory entry that was missing completes ACC. -/
theorem complete_upsert_iff_of_incomplete {i : Instr} {a : Acc} (hwf : i.wellFormed = true) (ha : complete a = false) :
    complete (a.upsert (opOf i) (valueOperand i)) = true ↔
      (∃ v p, i = .co2 v p ∧ a.get Config.opTemp ≠ none) ∨ (∃ v p, i = .temp v p ∧ a.get Config.opCo2 ≠ none) := by
  cases i with
  | co2 v p => simpa [opOf, valueOperand] using complete_upsert_co2_iff a v
  | temp v p => simpa [opOf, valueOperand] using complete_upsert_temp_iff a v
  | hum v p => simp [opOf, complete_upsert_of_ne a _ opHum_ne_opCo2 opHum_ne_opTemp, ha]
  | unk op v p =>
    obtain ⟨hco2, htemp, _⟩ := (wellFormed_unk_iff op v p).mp hwf
    simp [opOf, complete_upsert_of_ne a _ hco2 htemp, ha]

/-- Settles O34: an emission leaves ACC empty, so by O33's run each mandatory op-code must come before the next. -/
theorem readingsComeFromCo2OrTempSteps : Obligations.ReadingsComeFromCo2OrTempSteps := by
  refine ⟨fun i s hinv hwf => ?_, fun s k hinv hemitted hrun => ?_⟩
  · obtain ⟨t, hexec, hread⟩ := exec_reading_ne_none_iff i s
    exact ⟨t, hexec, hread.trans (complete_upsert_iff_of_incomplete hwf hinv.incomplete)⟩
  · have hreceived (m : OpCode) (hm : m = Config.opCo2 ∨ m = Config.opTemp) :
        ∃ o ∈ runOutputs k s, ∃ v, o.field = some ⟨m, v⟩ := by
      by_contra hnot
      refine hrun (runReadings_eq_nil_of_absent hm k s ?_ fun o ho v hv => hnot ⟨o, ho, v, hv⟩)
      rw [hinv.cleared hemitted, Acc.get_empty]
    exact ⟨hreceived _ (.inl rfl), hreceived _ (.inr rfl)⟩

end Sys2Proof.Machine

/-! The output strobes (45_host_interface.md R161, R185): which of them a step can assert together, and when the humidity
strobe stands beside a Reading. -/

namespace Sys2Proof.Machine

/-- A Field is output by the Field step alone and a ChecksumError by its own step alone, whatever state they start in. -/
theorem step_out_field_eq_none_or_err_eq_none {s t : State} (hstep : step s = .next t) :
    t.out.field = none ∨ t.out.err = none := by
  rcases step_next_cases hstep with ⟨_, rfl⟩ | ⟨_, _, _, rfl⟩ | ⟨_, rfl⟩ | ⟨_, _, fd, _, _, _, rfl⟩ |
    ⟨_, _, _, _, _, _, rfl⟩
  · exact .inl rfl
  · exact .inl rfl
  · exact .inl rfl
  · rw [fieldStep_out]
    exact .inr rfl
  · exact .inl rfl

namespace Outputs

theorem not_fieldValid_and_errValid_iff (o : Outputs) :
    ¬ (o.fieldValid = true ∧ o.errValid = true) ↔ o.field = none ∨ o.err = none := by
  simp only [fieldValid, errValid, Option.isSome_iff_ne_none, not_and_or, not_not]

theorem rdValid_iff (o : Outputs) : o.rdValid = true ↔ o.reading ≠ none := Option.isSome_iff_ne_none

/-- Both ports are absent without a Reading, and beside one the strobe tells whether it has a humidity. -/
theorem rdHumValid_eq_some_true_iff (o : Outputs) : o.rdHumValid = some true ↔ o.rdHum ≠ none := by
  unfold rdHumValid rdHum
  cases o.reading with
  | none => simp
  | some r => simp [Option.isSome_iff_ne_none]

end Outputs

/-- Settles O51: no step outputs a Field beside a ChecksumError, and the Field step alone outputs a Reading; the humidity
clause is one about every output. -/
theorem outputStrobesAreExclusive : Obligations.OutputStrobesAreExclusive := by
  intro s t hstep
  refine ⟨?_, fun hrd => ?_, t.out.rdHumValid_eq_some_true_iff⟩
  · exact t.out.not_fieldValid_and_errValid_iff.mpr (step_out_field_eq_none_or_err_eq_none hstep)
  · obtain ⟨fd, hfd, _⟩ := field_of_reading_output hstep (t.out.rdValid_iff.mp hrd)
    rw [Outputs.fieldValid, hfd]
    rfl

end Sys2Proof.Machine

/-! Runs of ChecksumErrors (60_exceptions.md R187). -/

namespace Sys2Proof.Machine

theorem step_of_failing_frame {s : State} {k : Key} {f : Frame} {ps : List PortsIn} (hk : s.key = some k)
    (hin : s.inputs = pushPorts f :: ps) (hd : (decode k f).tag = 1) :
    step s = .next { s with inputs := ps, n := s.n + 1, out := ⟨none, some ⟨f, candidate k f⟩, none⟩ } := by
  have hop : (portsNow s).op = .push f := by rw [portsNow_of_inputs_cons hin, pushPorts_op]
  have hinvalid := (tag_decode_eq_one_iff k f).mp hd
  rw [checksumErrorChangesNothing s k f _ hk hop (decode_of_invalid hinvalid), hin, List.tail_cons]

/-- Settles O42, by induction on the list of failing frames: the first step leaves the same state but for the index, the
queue and the outputs, so it is keyed and the induction hypothesis runs through the other frames. -/
theorem anyNumberOfChecksumErrorsIsHarmless : Obligations.AnyNumberOfChecksumErrorsIsHarmless := by
  intro fs rest
  induction fs with
  | nil =>
    rintro s k - hin -
    obtain rfl : s.inputs = rest := hin
    exact ⟨s.out, rfl⟩
  | cons f fs ih =>
    intro s k hk hin hfail
    obtain ⟨hf, hfs⟩ := List.forall_mem_cons.mp hfail
    have hn : s.n + (fs.length + 1) = s.n + 1 + fs.length := by omega
    rw [List.length_cons, hn, run_succ_of_step (M := core) (step_of_failing_frame hk hin hf)]
    exact ih _ k hk rfl hfs

end Sys2Proof.Machine

/-! The host interface (45_host_interface.md): what a step does on each misuse, and the statements about RESET, LOADKEY,
idle cycles and a host that keeps its duties. -/

namespace Sys2Proof.Machine

/-! ### The request on the ports (R161, R162) -/

theorem PortsIn.op_of_rst {p : PortsIn} (h : p.rst = true) : p.op = .reset := by
  simp [PortsIn.op, h]

@[simp] theorem loadKeyPorts_op (k : Key) : (loadKeyPorts k).op = .loadKey k := by
  simp [PortsIn.op, loadKeyPorts]

/-- LOADKEY and PUSH meet exactly where both strobes are 1 and RESET does not win over them (R164). -/
theorem PortsIn.op_eq_loadKeyWithPush_iff (p : PortsIn) :
    p.op = .loadKeyWithPush ↔ p.rst = false ∧ p.keyWe = true ∧ p.frameValid = true := by
  obtain ⟨rst, keyWe, _, frameValid, _⟩ := p
  cases rst <;> cases keyWe <;> cases frameValid <;> simp [PortsIn.op]

theorem State.keyValid_eq_false_iff (s : State) : s.keyValid = false ↔ s.key = none := by
  simp [State.keyValid]

theorem State.keyValid_eq_true_iff (s : State) : s.keyValid = true ↔ ∃ k, s.key = some k :=
  Option.isSome_iff_exists

/-! ### The misuses (R170) -/

section misuse
variable {s : State}

theorem step_of_push_without_key {f : Frame} (hop : (portsNow s).op = .push f) (hk : s.key = none) :
    step s = .refused .pushBeforeKey :=
  (step_of_push f hop).trans (hostPush_of_none (s := consumePorts s) f hk)

theorem step_of_second_loadKey {k k' : Key} (hop : (portsNow s).op = .loadKey k) (hk : s.key = some k') :
    step s = .refused .secondLoadKey := by
  rw [step, hop]
  exact hostLoadKey_of_some (s := consumePorts s) k hk

theorem step_of_loadKeyWithPush (hop : (portsNow s).op = .loadKeyWithPush) : step s = .refused .loadKeyWithPush := by
  rw [step, hop]
  rfl

end misuse

/-- Everything that refuses a step, request by request. -/
theorem step_eq_refused_iff (s : State) (r : Refusal) : step s = .refused r ↔
    ((∃ f, (portsNow s).op = .push f) ∧ s.keyValid = false ∧ r = .pushBeforeKey) ∨
    ((∃ k, (portsNow s).op = .loadKey k) ∧ s.keyValid = true ∧ r = .secondLoadKey) ∨
    ((portsNow s).op = .loadKeyWithPush ∧ r = .loadKeyWithPush) := by
  cases hop : (portsNow s).op with
  | reset => simp [step_of_reset hop]
  | loadKey k =>
    cases hk : s.key with
    | none => simp [step_of_loadKey hop hk, s.keyValid_eq_false_iff.mpr hk]
    | some k' => simp [step_of_second_loadKey hop hk, s.keyValid_eq_true_iff.mpr ⟨k', hk⟩, eq_comm]
  | push f =>
    cases hk : s.key with
    | none => simp [step_of_push_without_key hop hk, s.keyValid_eq_false_iff.mpr hk, eq_comm]
    | some k =>
      obtain ⟨t, hstep, _⟩ := step_of_push_refStep hk hop
      simp [hstep, s.keyValid_eq_true_iff.mpr ⟨k, hk⟩]
  | loadKeyWithPush => simpa [step_of_loadKeyWithPush hop] using eq_comm
  | idle => simp [step_of_idle hop]

/-- Settles O46: the refusals are `step_eq_refused_iff`, and there is no fault to stop with. -/
theorem stepRefusesExactlyTheHostMisuses : Obligations.StepRefusesExactlyTheHostMisuses := by
  refine fun s => ⟨fun r => ?_, nofun⟩
  rw [step_eq_refused_iff, PortsIn.op_eq_loadKeyWithPush_iff, and_assoc, and_assoc]

/-! ### A host that keeps its duties (R170) -/

/-- The requests to come keep R170 from this state on. -/
def HostKeepsDuties (s : State) : Prop := hostObeys s.keyValid (s.inputs.map PortsIn.op) = true

/-- The duties read on the request of this cycle and the later ones: an empty queue is an idle cycle (R165). -/
theorem hostKeepsDuties_iff (s : State) : HostKeepsDuties s ↔
    hostObeys s.keyValid ((portsNow s).op :: s.inputs.tail.map PortsIn.op) = true := by
  rw [HostKeepsDuties, portsNow]
  cases s.inputs <;> rfl

/-- The duties that are left after a step, by the key it leaves. -/
theorem hostKeepsDuties_of_tail {s t : State} {keyed : Bool} (hkey : t.keyValid = keyed)
    (hin : t.inputs = s.inputs.tail) (h : hostObeys keyed (s.inputs.tail.map PortsIn.op) = true) :
    HostKeepsDuties t := by
  rwa [HostKeepsDuties, hkey, hin]

/-- A step of an obeying host is taken and leaves the host obeying: what the duties demand of the request of this cycle
is what its meaning needs. -/
theorem step_of_hostKeepsDuties {s : State} (h : HostKeepsDuties s) : ∃ t, step s = .next t ∧ HostKeepsDuties t := by
  rw [hostKeepsDuties_iff] at h
  cases hop : (portsNow s).op with
  | reset =>
    rw [hop, hostObeys] at h
    exact ⟨_, step_of_reset hop, hostKeepsDuties_of_tail rfl rfl h⟩
  | loadKey k =>
    rw [hop, hostObeys, Bool.and_eq_true, Bool.not_eq_true', State.keyValid_eq_false_iff] at h
    obtain ⟨hk, h⟩ := h
    exact ⟨_, step_of_loadKey hop hk, hostKeepsDuties_of_tail rfl rfl h⟩
  | push f =>
    rw [hop, hostObeys, Bool.and_eq_true, State.keyValid_eq_true_iff] at h
    obtain ⟨⟨k, hk⟩, h⟩ := h
    obtain ⟨t, hstep, _, hkey, _, hin⟩ := step_of_push_refStep hk hop
    exact ⟨t, hstep, hostKeepsDuties_of_tail (congrArg Option.isSome hkey) hin h⟩
  | loadKeyWithPush => simp [hop, hostObeys] at h
  | idle =>
    rw [hop, hostObeys] at h
    exact ⟨_, step_of_idle hop, hostKeepsDuties_of_tail rfl rfl h⟩

/-- A run goes on for as long as a property holds that lets every step be taken and that the step keeps. -/
theorem run_next_of_progress {M : Host.Core} {P : M.State → Prop}
    (hstep : ∀ s, P s → ∃ t, M.step s = .next t ∧ P t) (k : Nat) : ∀ s, P s → ∃ t, M.run k s = .next t ∧ P t := by
  induction k with
  | zero => exact fun s hs => ⟨s, rfl, hs⟩
  | succ k ih =>
    intro s hs
    obtain ⟨t, ht, hPt⟩ := hstep s hs
    rw [run_succ_of_step ht]
    exact ih t hPt

/-- Settles O47: the duties are a property that lets every step be taken and that every step keeps. -/
theorem obeyingHostIsNeverRefused : Obligations.ObeyingHostIsNeverRefused := by
  intro k s h
  obtain ⟨t, hrun, _⟩ := run_next_of_progress (M := core) (fun _ => step_of_hostKeepsDuties) k s h
  exact ⟨t, hrun⟩

/-! ### RESET, LOADKEY and idle (R162, R163, R165) -/

/-- Settles O43: RESET wins whatever else is requested, and without a key a PUSH is refused. -/
theorem resetGivesTheResetState : Obligations.ResetGivesTheResetState := fun _ h =>
  ⟨_, step_of_reset (PortsIn.op_of_rst h), rfl, fun _ => rfl, rfl, rfl, rfl, rfl, rfl,
    fun _ hop => step_of_push_without_key hop rfl⟩

/-- Settles O44: RESET leaves no key, so the LOADKEY after it is a first one. -/
theorem loadKeyIsWriteOnce : Obligations.LoadKeyIsWriteOnce := by
  refine ⟨fun s k hop hk => step_of_loadKey hop (s.keyValid_eq_false_iff.mp hk), fun s k hop hk => ?_,
    fun s k rest hin => ?_⟩
  · obtain ⟨k', hk'⟩ := s.keyValid_eq_true_iff.mp hk
    exact step_of_second_loadKey hop hk'
  · have hreset : step s = .next (hostReset (consumePorts s)) :=
      step_of_reset (congrArg PortsIn.op (portsNow_of_inputs_cons hin))
    have hop : (portsNow (hostReset (consumePorts s))).op = .loadKey k := by
      rw [portsNow_of_inputs_cons (congrArg List.tail hin), loadKeyPorts_op]
    rw [run_succ_of_step (M := core) hreset, run_succ_of_step (M := core) (step_of_loadKey hop rfl)]
    exact ⟨_, rfl, rfl⟩

theorem step_of_idlePorts {s : State} {ps : List PortsIn} (hin : s.inputs = idlePorts :: ps) :
    step s = .next { s with inputs := ps, out := Outputs.quiet } := by
  have htail : s.inputs.tail = ps := congrArg List.tail hin
  rw [step_of_idle (congrArg PortsIn.op (portsNow_of_inputs_cons hin)), hostIdle, consumePorts, htail]

/-- Settles O45, by induction on the number of idle cycles: the first leaves the same state but for the queue, with no
strobe asserted. -/
theorem idleCyclesChangeNothing : Obligations.IdleCyclesChangeNothing := by
  intro m rest
  induction m with
  | zero =>
    intro s hin
    have hstep := step_of_idlePorts hin
    rw [run_succ_of_step (M := core) hstep, runOutputs_succ_of_step hstep]
    exact ⟨rfl, rfl⟩
  | succ m ih =>
    intro s hin
    have hstep := step_of_idlePorts (ps := List.replicate (m + 1) idlePorts ++ rest) hin
    rw [run_succ_of_step (M := core) hstep, runOutputs_succ_of_step hstep]
    exact (ih _ rfl).imp_right (congrArg (Outputs.quiet :: ·))

/-! ### The state after reset (10_state.md R35) -/

/-- Settles O52: each piece is read off the reset state. -/
theorem resetStateIsAsTheSpecSays : Obligations.ResetStateIsAsTheSpecSays :=
  ⟨rfl, fun _ => ⟨rfl, rfl⟩, rfl, rfl, rfl, rfl, rfl, rfl, rfl⟩

/-- Settles O53: the reset state is what RESET makes of itself. -/
theorem invariantHoldsAtReset : Obligations.InvariantHoldsAtReset := inv_hostReset State.reset

end Sys2Proof.Machine

/-! What UNK entries hold (41_accumulator.md R134, decision D5): states that differ only there go on alike. -/

namespace Sys2Proof.Machine

/-! ### Register files that agree on the named entries -/

theorem AgreeOnNamed.readingOf_eq {a b : Acc} (h : AgreeOnNamed a b) : readingOf a = readingOf b := by
  obtain ⟨hco2, htemp, hhum⟩ := h
  rw [readingOf, readingOf, hco2, htemp, hhum]

theorem AgreeOnNamed.complete_eq {a b : Acc} (h : AgreeOnNamed a b) : complete a = complete b := by
  rw [← isSome_readingOf, ← isSome_readingOf, h.readingOf_eq]

/-- An upsert writes the same value to both, whether or not its op-code is a named one. -/
theorem AgreeOnNamed.upsert {a b : Acc} (h : AgreeOnNamed a b) (op : OpCode) (v : Value) :
    AgreeOnNamed (a.upsert op v) (b.upsert op v) := by
  obtain ⟨hco2, htemp, hhum⟩ := h
  simp only [AgreeOnNamed, Acc.get_upsert, hco2, htemp, hhum, and_self]

theorem agreeOnNamed_upsert_unknown (a : Acc) {op : OpCode} (v : Value) (hco2 : op ≠ Config.opCo2)
    (htemp : op ≠ Config.opTemp) (hhum : op ≠ Config.opHum) : AgreeOnNamed (a.upsert op v) a :=
  ⟨a.get_upsert_ne v hco2.symm, a.get_upsert_ne v htemp.symm, a.get_upsert_ne v hhum.symm⟩

theorem fieldStep_fsm (f : Field) (s : State) : (fieldStep f s).fsm =
    if complete (s.acc.upsert f.op f.value) = true then .collecting else s.fsm := by
  rcases fieldStep_cases f s with ⟨_, _, hc, h⟩ | ⟨hc, h⟩ <;> simp [h, hc]

/-! ### Every operation keeps the relation -/

section SameButUnknown

variable {s t : State} (h : SameButUnknown s t)
include h

theorem SameButUnknown.symm : SameButUnknown t s where
  key := h.key.symm
  named := have ⟨hco2, htemp, hhum⟩ := h.named; ⟨hco2.symm, htemp.symm, hhum.symm⟩
  fsm := h.fsm.symm
  n := h.n.symm
  inputs := h.inputs.symm
  out := h.out.symm

theorem SameButUnknown.portsNow_eq : portsNow s = portsNow t := by
  rw [portsNow, portsNow, h.inputs]

theorem SameButUnknown.consumePorts : SameButUnknown (consumePorts s) (consumePorts t) :=
  { h with inputs := congrArg List.tail h.inputs }

theorem SameButUnknown.nextIndex : SameButUnknown (nextIndex s) (nextIndex t) :=
  { h with n := congrArg (· + 1) h.n }

theorem SameButUnknown.hostReset : SameButUnknown (hostReset s) (hostReset t) :=
  ⟨rfl, ⟨rfl, rfl, rfl⟩, rfl, rfl, h.inputs, rfl⟩

theorem SameButUnknown.loadKey (k : Key) :
    SameButUnknown { s with key := some k, out := Outputs.quiet } { t with key := some k, out := Outputs.quiet } :=
  { h with key := rfl, out := rfl }

theorem SameButUnknown.hostIdle : SameButUnknown (hostIdle s) (hostIdle t) :=
  { h with out := rfl }

theorem SameButUnknown.takeChecksumError (e : ErrorReport) :
    SameButUnknown (takeChecksumError e s) (takeChecksumError e t) :=
  { h with out := rfl }

/-- Both upserts complete ACC or neither does, and the Reading is built from named entries. -/
theorem SameButUnknown.fieldStep (fd : Field) : SameButUnknown (fieldStep fd s) (fieldStep fd t) := by
  have hupsert := h.named.upsert fd.op fd.value
  refine ⟨by simp [h.key], ?_, ?_, by simp [h.n], by simp [h.inputs], ?_⟩
  · rw [fieldStep_acc, fieldStep_acc, ← hupsert.complete_eq]
    split
    · exact ⟨rfl, rfl, rfl⟩
    · exact hupsert
  · rw [fieldStep_fsm, fieldStep_fsm, hupsert.complete_eq, h.fsm]
  · rw [fieldStep_out, fieldStep_out, hupsert.readingOf_eq]

/-- The second state takes the same case of the step as the first. -/
theorem SameButUnknown.exists_step {s' : State} (hstep : step s = .next s') :
    ∃ t', step t = .next t' ∧ SameButUnknown s' t' := by
  have hports := h.portsNow_eq
  have hc := h.consumePorts
  rcases step_next_cases hstep with ⟨hop, rfl⟩ | ⟨k, hop, hk, rfl⟩ | ⟨hop, rfl⟩ | ⟨f, k, fd, hop, hk, hd, rfl⟩ |
    ⟨f, k, e, hop, hk, hd, rfl⟩ <;> rw [hports] at hop
  · exact ⟨_, step_of_reset hop, hc.hostReset⟩
  · exact ⟨_, step_of_loadKey hop (h.key ▸ hk), hc.loadKey k⟩
  · exact ⟨_, step_of_idle hop, hc.hostIdle⟩
  · exact ⟨_, step_of_push_field hop (h.key ▸ hk) hd, hc.nextIndex.fieldStep fd⟩
  · exact ⟨_, step_of_push_checksumError hop (h.key ▸ hk) hd, hc.nextIndex.takeChecksumError e⟩

end SameButUnknown

/-! ### Runs -/

theorem runOutputs_succ_of_no_step {s : State} (h : ∀ t, step s ≠ .next t) (k : Nat) : runOutputs (k + 1) s = [] := by
  rw [runOutputs]
  split
  · next t ht => exact absurd ht (h t)
  · rfl
  · rfl

/-- By induction on the number of steps: each is taken from both states or from neither. -/
theorem SameButUnknown.runOutputs_eq (k : Nat) :
    ∀ {s t : State}, SameButUnknown s t → runOutputs k s = runOutputs k t := by
  induction k with
  | zero => exact fun _ => rfl
  | succ k ih =>
    intro s t h
    by_cases hs : ∃ s', step s = .next s'
    · obtain ⟨s', hs'⟩ := hs
      obtain ⟨t', ht', h'⟩ := h.exists_step hs'
      rw [runOutputs_succ_of_step hs', runOutputs_succ_of_step ht', h'.out, ih h']
    · have hs : ∀ s', step s ≠ .next s' := not_exists.mp hs
      have ht : ∀ t', step t ≠ .next t' := fun t' ht' =>
        have ⟨s', hs', _⟩ := h.symm.exists_step ht'
        hs s' hs'
      rw [runOutputs_succ_of_no_step hs, runOutputs_succ_of_no_step ht]

/-- Settles O50: the relation is kept by every step, so runs have equal outputs; an UNK that does not complete ACC only
stores, and what it stores is no named entry. -/
theorem unknownEntriesAreUnobservable : Obligations.UnknownEntriesAreUnobservable := by
  refine ⟨fun _ _ _ h hstep => h.exists_step hstep, fun _ _ k h => h.runOutputs_eq k, fun op v pad s hwf hc => ?_⟩
  obtain ⟨hco2, htemp, hhum⟩ := (wellFormed_unk_iff op v pad).mp hwf
  exact ⟨_, exec_of_ne_mandatory_of_incomplete hco2 htemp hc, rfl,
    agreeOnNamed_upsert_unknown s.acc v hco2 htemp hhum, rfl, rfl, rfl, rfl⟩

end Sys2Proof.Machine

/-! Which path of the decoder an outcome comes from (40_frame_decoder.md R100, R110, conflict C3), and the spec's own
frames. -/

namespace Sys2Proof

open Sys2Proof.Machine

/-- Settles O12: a plaintext-valid frame decodes to a Field, and of every other frame the candidate is the transform. -/
theorem checksumErrorOnlyOnTheTransformPath : Obligations.ChecksumErrorOnlyOnTheTransformPath := by
  intro k f e
  cases hf : valid f with
  | true => simp [decode_of_plaintext_valid k hf]
  | false => simp [decode_eq_checksumError_iff, candidate_of_invalid k hf]

/-- Settles O1: the six words are evaluated. -/
theorem specFramesDecodeToTheirInstructions : Obligations.SpecFramesDecodeToTheirInstructions := by
  unfold Obligations.SpecFramesDecodeToTheirInstructions
  decide

end Sys2Proof
